-- ==== Sys2Proof/Word.lean ====
section
/-! DEFINITION. The three widths of the block (00_scope.md R6): bytes of code, 64-bit data values, 16-bit immediates. -/

namespace Sys2Proof

/-- A byte of the code space (R6, OPCODE_BITS = 8). -/
abbrev Byte := BitVec 8

/-- A data value: a stack slot, a memory cell, the result register (R6, R8, WORD_BITS = 64). -/
abbrev Word := BitVec 64

/-- A 16-bit immediate, memory address or jump target (R6, IMM_BITS = ADDR_BITS = 16; R76). -/
abbrev Imm := BitVec 16

/-- A memory address (R51). -/
abbrev Addr := BitVec 16

end Sys2Proof
end

