-- ==== Sys2Proof/Config.lean ====
section
/-! DEFINITION. The parameters the spec leaves OPEN (00_scope.md R6): OPCODE_VALUE, DISPATCH_MODE and
INDIRECT_ADDRESS_POLICY, as plain data. CODE_LEN is the length of the launch's buffer in State. The defaults the
spec gives stand in Decode.lean. -/

namespace Sys2Proof

/-- The 26 mnemonics of R2, in the order of R79's default table. -/
inductive Mnemonic where
  | abort | pushImm | loadMemImm | loadAddMemImm | storeMemImm | loadIndirect | storeIndirect
  | dup | discard
  | add | addImm | sub | div | mul
  | jump | jumpIfTrue | jumpIfFalse
  | equal | less | lessOrEqual | greater | greaterOrEqual | greaterOrEqualImm
  | popResult | done | print
  deriving DecidableEq, Repr

/-- The place of a mnemonic's value in `Config.opcodes`. -/
def Mnemonic.index : Mnemonic → Fin 26
  | .abort => 0 | .pushImm => 1 | .loadMemImm => 2 | .loadAddMemImm => 3 | .storeMemImm => 4
  | .loadIndirect => 5 | .storeIndirect => 6 | .dup => 7 | .discard => 8 | .add => 9 | .addImm => 10
  | .sub => 11 | .div => 12 | .mul => 13 | .jump => 14 | .jumpIfTrue => 15 | .jumpIfFalse => 16
  | .equal => 17 | .less => 18 | .lessOrEqual => 19 | .greater => 20 | .greaterOrEqual => 21
  | .greaterOrEqualImm => 22 | .popResult => 23 | .done => 24 | .print => 25

/-- Every mnemonic once, in the order of `Mnemonic.index`. -/
def Mnemonic.all : List Mnemonic :=
  [.abort, .pushImm, .loadMemImm, .loadAddMemImm, .storeMemImm, .loadIndirect, .storeIndirect, .dup, .discard,
   .add, .addImm, .sub, .div, .mul, .jump, .jumpIfTrue, .jumpIfFalse, .equal, .less, .lessOrEqual, .greater,
   .greaterOrEqual, .greaterOrEqualImm, .popResult, .done, .print]

/-- DISPATCH_MODE (R6, R94, R95). -/
inductive DispatchMode where
  | direct
  | indirect
  deriving DecidableEq, Repr

/-- INDIRECT_ADDRESS_POLICY (R6, R54). -/
inductive AddressPolicy where
  | truncate16
  | faultIfWide
  deriving DecidableEq, Repr

/-- The configuration of one block. Constant over every launch (R38, R43). DESIGN CHOICE, safe: held as data, so that
every statement about the machine holds for every choice of the open parameters (log 3). -/
structure Config where
  /-- OPCODE_VALUE of each mnemonic, at the mnemonic's index (R79). -/
  opcodes : Vector Byte 26
  dispatchMode : DispatchMode
  addressPolicy : AddressPolicy
  deriving DecidableEq, Repr

/-- OPCODE_VALUE (R79). -/
def Config.opcodeValue (c : Config) (m : Mnemonic) : Byte := c.opcodes[m.index]

end Sys2Proof
end

