-- ==== Sys2Proof/Syntax.lean ====
section
/-! DEFINITION. The instructions: one constructor for each row of opcode_table.json (00_scope.md R2). Formats F1 and F3
(30_encoding.md R71, R72); stack operands are implicit (R78). -/

namespace Sys2Proof

/-- An instruction with the immediate its bytes carry. -/
inductive Instr where
  /-- ABORT (R173). -/
  | abort
  /-- PUSH_IMM imm16 (R120). -/
  | pushImm (imm : Imm)
  /-- LOAD_MEM_IMM addr16 (R121). -/
  | loadMemImm (addr : Imm)
  /-- LOAD_ADD_MEM_IMM addr16 (R122). -/
  | loadAddMemImm (addr : Imm)
  /-- STORE_MEM_IMM addr16 (R123). -/
  | storeMemImm (addr : Imm)
  /-- LOAD_INDIRECT (R124). -/
  | loadIndirect
  /-- STORE_INDIRECT (R125). -/
  | storeIndirect
  /-- DUP (R130). -/
  | dup
  /-- DISCARD (R131). -/
  | discard
  /-- ADD (R141). -/
  | add
  /-- ADD_IMM imm16 (R142). -/
  | addImm (imm : Imm)
  /-- SUB (R143). -/
  | sub
  /-- DIV (R144). -/
  | div
  /-- MUL (R145). -/
  | mul
  /-- JUMP target16 (R150). -/
  | jump (target : Imm)
  /-- JUMP_IF_TRUE target16 (R151). -/
  | jumpIfTrue (target : Imm)
  /-- JUMP_IF_FALSE target16 (R152). -/
  | jumpIfFalse (target : Imm)
  /-- EQUAL (R161). -/
  | equal
  /-- LESS (R162). -/
  | less
  /-- LESS_OR_EQUAL (R163). -/
  | lessOrEqual
  /-- GREATER (R164). -/
  | greater
  /-- GREATER_OR_EQUAL (R165). -/
  | greaterOrEqual
  /-- GREATER_OR_EQUAL_IMM imm16 (R166). -/
  | greaterOrEqualImm (imm : Imm)
  /-- POP_RESULT (R170). -/
  | popResult
  /-- DONE (R171). -/
  | done
  /-- PRINT (R172). -/
  | print
  /-- UNDEFINED(b), the table's row for any other byte (R80, R174). -/
  | undefined (b : Byte)
  deriving DecidableEq, Repr

end Sys2Proof
end

