-- ==== Sys2Proof/WellFormed.lean ====
section
/-! DEFINITION. What a well-formed configuration and a well-formed instruction are. -/

namespace Sys2Proof

/-- OPCODE_VALUE "must be injective: no two mnemonics share a value" (R79). -/
def Config.wellFormed (c : Config) : Bool := decide ((Mnemonic.all.map c.opcodeValue).Nodup)

/-- A byte is undefined when no mnemonic has it as its OPCODE_VALUE (R80). -/
def Config.isUndefinedByte (c : Config) (b : Byte) : Bool := Mnemonic.all.all fun m => decide (c.opcodeValue m ≠ b)

/-- Every 16-bit value is a legal immediate (R82), so only UNDEFINED(b) has a condition: b is an undefined byte (R80). -/
def Instr.wellFormed (c : Config) : Instr → Bool
  | .undefined b => c.isUndefinedByte b
  | .abort | .pushImm _ | .loadMemImm _ | .loadAddMemImm _ | .storeMemImm _ | .loadIndirect | .storeIndirect
  | .dup | .discard | .add | .addImm _ | .sub | .div | .mul | .jump _ | .jumpIfTrue _ | .jumpIfFalse _
  | .equal | .less | .lessOrEqual | .greater | .greaterOrEqual | .greaterOrEqualImm _
  | .popResult | .done | .print => true

end Sys2Proof
end

