-- ==== Sys2Proof/Decode.lean ====
section
/-! DEFINITION. The bytecode_decoder (30_encoding.md R70 to R82), its two dispatch forms (40_dispatch_engine.md R94 to
R96), the spec's default parameters (R79, R54), and the encoder written from the same formats (R71). -/

namespace Sys2Proof

/-! ## The spec's defaults -/

/-- The default OPCODE_VALUE of R79: ABORT 0x00, PUSH_IMM 0x01, ..., PRINT 0x19. PRESUMED, unsafe: the spec marks it "from
general knowledge, not in source" and unchecked (log 2). -/
def defaultOpcodes : Vector Byte 26 :=
  #v[0x00, 0x01, 0x02, 0x03, 0x04, 0x05, 0x06, 0x07, 0x08, 0x09, 0x0A, 0x0B, 0x0C,
     0x0D, 0x0E, 0x0F, 0x10, 0x11, 0x12, 0x13, 0x14, 0x15, 0x16, 0x17, 0x18, 0x19]

/-- The configuration State.reset carries: R79's opcode values, the default policy Truncate16 (R54; log 4), and Direct
dispatch (DESIGN CHOICE, safe: R97 makes the mode unobservable; log 11). -/
def defaultConfig : Config :=
  { opcodes := defaultOpcodes, dispatchMode := .direct, addressPolicy := .truncate16 }

/-! ## Immediates -/

/-- `hi ++ lo`: the first byte is bits 15:8 (R57, R74). -/
def joinImm (hi lo : Byte) : Imm := hi ++ lo

/-- `imm[15:8]`, the byte at offset +1 of F3 (R71). -/
def immHigh (imm : Imm) : Byte := imm.extractLsb' 8 8

/-- `imm[7:0]`, the byte at offset +2 of F3 (R71). -/
def immLow (imm : Imm) : Byte := imm.extractLsb' 0 8

/-! ## Formats -/

/-- The nine opcodes of format F3 (R72). -/
def Mnemonic.hasImm : Mnemonic → Bool
  | .pushImm | .loadMemImm | .loadAddMemImm | .storeMemImm | .addImm
  | .jump | .jumpIfTrue | .jumpIfFalse | .greaterOrEqualImm => true
  | .abort | .loadIndirect | .storeIndirect | .dup | .discard | .add | .sub | .div | .mul
  | .equal | .less | .lessOrEqual | .greater | .greaterOrEqual | .popResult | .done | .print => false

/-- The instruction of a mnemonic and its immediate; an F1 instruction has none and leaves the argument unused (R72). -/
def Mnemonic.instr (m : Mnemonic) (imm : Imm) : Instr :=
  match m with
  | .abort => .abort
  | .pushImm => .pushImm imm
  | .loadMemImm => .loadMemImm imm
  | .loadAddMemImm => .loadAddMemImm imm
  | .storeMemImm => .storeMemImm imm
  | .loadIndirect => .loadIndirect
  | .storeIndirect => .storeIndirect
  | .dup => .dup
  | .discard => .discard
  | .add => .add
  | .addImm => .addImm imm
  | .sub => .sub
  | .div => .div
  | .mul => .mul
  | .jump => .jump imm
  | .jumpIfTrue => .jumpIfTrue imm
  | .jumpIfFalse => .jumpIfFalse imm
  | .equal => .equal
  | .less => .less
  | .lessOrEqual => .lessOrEqual
  | .greater => .greater
  | .greaterOrEqual => .greaterOrEqual
  | .greaterOrEqualImm => .greaterOrEqualImm imm
  | .popResult => .popResult
  | .done => .done
  | .print => .print

/-! ## Dispatch -/

/-- Direct dispatch: a multi-way branch on the opcode value; none is UNDEFINED(b) (R94). -/
def decodeDirect (c : Config) (b : Byte) : Option Mnemonic :=
  Mnemonic.all.find? fun m => decide (c.opcodeValue m = b)

/-- The dispatch table T[0..255] (R96): 256 fallback entries (none), then each mnemonic at its OPCODE_VALUE. -/
def dispatchTable (c : Config) : List (Option Mnemonic) :=
  Mnemonic.all.foldl (fun t m => t.set (c.opcodeValue m).toNat (some m)) (List.replicate 256 none)

/-- Indirect dispatch: the table entry at the opcode byte (R95). -/
def decodeIndirect (c : Config) (b : Byte) : Option Mnemonic := ((dispatchTable c)[b.toNat]?).join

/-- `Decode(b)` under the configured DISPATCH_MODE (R91, R94, R95). -/
def decodeOpcode (c : Config) (b : Byte) : Option Mnemonic :=
  match c.dispatchMode with
  | .direct => decodeDirect c b
  | .indirect => decodeIndirect c b

/-! ## Decoding a byte sequence -/

/-- Why a byte sequence holds no whole instruction. -/
inductive DecodeError where
  /-- No opcode byte. -/
  | noOpcodeByte
  /-- The opcode carries an immediate and fewer than two bytes follow it. -/
  | immediateCutShort (m : Mnemonic)
  deriving DecidableEq, Repr

/-- The first instruction of a byte sequence and the bytes after it (R70 to R72, R80, R81). Total: an undefined byte is the
one-byte instruction UNDEFINED(b), and a sequence too short is rejected by name. -/
def decode (c : Config) : List Byte → Except DecodeError (Instr × List Byte)
  | [] => .error .noOpcodeByte
  | b :: rest =>
    match decodeOpcode c b with
    | none => .ok (.undefined b, rest)
    | some m =>
      if m.hasImm then
        match rest with
        | hi :: lo :: rest' => .ok (m.instr (joinImm hi lo), rest')
        | _ => .error (.immediateCutShort m)
      else .ok (m.instr 0, rest)

/-! ## The encoder -/

/-- Format F1 (R71). -/
def encodeF1 (c : Config) (m : Mnemonic) : List Byte := [c.opcodeValue m]

/-- Format F3 (R71). -/
def encodeF3 (c : Config) (m : Mnemonic) (imm : Imm) : List Byte := [c.opcodeValue m, immHigh imm, immLow imm]

/-- The bytes of an instruction (R71, R72, R80). -/
def encode (c : Config) : Instr → List Byte
  | .abort => encodeF1 c .abort
  | .pushImm imm => encodeF3 c .pushImm imm
  | .loadMemImm a => encodeF3 c .loadMemImm a
  | .loadAddMemImm a => encodeF3 c .loadAddMemImm a
  | .storeMemImm a => encodeF3 c .storeMemImm a
  | .loadIndirect => encodeF1 c .loadIndirect
  | .storeIndirect => encodeF1 c .storeIndirect
  | .dup => encodeF1 c .dup
  | .discard => encodeF1 c .discard
  | .add => encodeF1 c .add
  | .addImm imm => encodeF3 c .addImm imm
  | .sub => encodeF1 c .sub
  | .div => encodeF1 c .div
  | .mul => encodeF1 c .mul
  | .jump t => encodeF3 c .jump t
  | .jumpIfTrue t => encodeF3 c .jumpIfTrue t
  | .jumpIfFalse t => encodeF3 c .jumpIfFalse t
  | .equal => encodeF1 c .equal
  | .less => encodeF1 c .less
  | .lessOrEqual => encodeF1 c .lessOrEqual
  | .greater => encodeF1 c .greater
  | .greaterOrEqual => encodeF1 c .greaterOrEqual
  | .greaterOrEqualImm imm => encodeF3 c .greaterOrEqualImm imm
  | .popResult => encodeF1 c .popResult
  | .done => encodeF1 c .done
  | .print => encodeF1 c .print
  | .undefined b => [b]

/-! ## Lengths -/

/-- The length in bytes: 3 for F3, 1 for F1 and for an undefined byte (R71, R72). -/
def Instr.size : Instr → Nat
  | .pushImm _ | .loadMemImm _ | .loadAddMemImm _ | .storeMemImm _ | .addImm _
  | .jump _ | .jumpIfTrue _ | .jumpIfFalse _ | .greaterOrEqualImm _ => 3
  | .abort | .loadIndirect | .storeIndirect | .dup | .discard | .add | .sub | .div | .mul
  | .equal | .less | .lessOrEqual | .greater | .greaterOrEqual | .popResult | .done | .print | .undefined _ => 1

/-- How far the decoder moves `ip` while it reads the instruction: past all of it, but JUMP only peeks at its immediate, so
past its opcode byte alone (R73 to R75). -/
def Instr.ipAdvance : Instr → Nat
  | .jump _ => 1
  | i => i.size

/-! ## The host's numbering -/

/-- The bytes of an instruction numbered as opcode_table.json numbers its bits: bit 0 is the least significant bit of the
first byte. Bits at and above nbits are 0; three bytes, the longest instruction. -/
def tableBytes (nbits w : Nat) : List Byte :=
  let v := w % 2 ^ nbits
  [BitVec.ofNat 8 v, BitVec.ofNat 8 (v / 256), BitVec.ofNat 8 (v / 65536)]

/-- What the decoder, at the default configuration, reads from an instruction whose bits are w. -/
def decodeTableWord (nbits w : Nat) : Option Instr :=
  match decode defaultConfig (tableBytes nbits w) with
  | .ok (i, _) => some i
  | .error _ => none

end Sys2Proof
end

