-- ==== Sys2Proof/Machine/State.lean ====
section
/-! DEFINITION. The architectural state `(ip, h, S, M, res, status, out)` of 10_state.md R20, the launch's inputs beside it,
and the reset (R41) and power-on (R42) states. Plain data. -/

namespace Sys2Proof.Machine

/-- One listed 64-bit cell of an array, as (index, value). The block has no byte view of a cell (R57), so a cell is the
smallest unit an address names (R51; log 8). -/
abbrev Cell := Nat × Word

/-- The memory_array M[0..65535] (R51): the nonzero cells, addresses strictly rising. An unlisted cell holds 0, the reset
value (R41; log 8). -/
abbrev Memory := List Cell

/-- The stack_array's slots S[0..255] (R22), in the same form. -/
abbrev Slots := List Cell

/-- The four outcomes a launch reports (R12, R100). -/
inductive RunOutcome where
  | success
  | divisionByZero
  | unknownOpcode
  | endOfStream
  deriving DecidableEq, Repr

/-- The four model faults for behaviour the source calls undefined (R206). A primitive that raises one records it in the
status register (R91); `step` stops with it when asked to go on from there (R92). Safe: a faulted launch has no outcome
and takes no further step (log 1). -/
inductive Fault where
  /-- `pop`, `top` or `settop` on an empty stack (R25 to R27). Safe. -/
  | stackUnderflow
  /-- `push` on 256 occupied slots (R24). Safe. -/
  | stackOverflow
  /-- A code read at an offset at or past CODE_LEN (R55). Safe. -/
  | fetchOutOfBounds
  /-- A popped address of 65536 or more under FaultIfWide (R54). Safe. -/
  | addressOutOfRange
  deriving DecidableEq, Repr

/-- Why `step` has no move (DESIGN CHOICE, safe; log 9). -/
inductive Refusal where
  /-- An instruction without a meaning in this model: raised by no arm now. Safe. -/
  | notModelled (mnemonic : String)
  /-- `step` before any launch: status Idle (R92, R242). Safe. -/
  | noLaunchYet
  /-- `step` after the launch ended with an outcome: status Halted(o) (R92). Safe. -/
  | launchEnded (o : RunOutcome)
  deriving DecidableEq, Repr

/-- The status register (R36). -/
inductive Status where
  | idle
  | running
  | halted (o : RunOutcome)
  | faulted (f : Fault)
  deriving DecidableEq, Repr

/-- The block's state (R20), with the launch's code buffer and the configuration (R38, R45), which no step writes. -/
structure State where
  /-- The instruction pointer: a byte offset into `code` (R30). Unbounded, as D4 allows (log 5). -/
  ip : Nat
  /-- The top-of-stack cursor: the number of occupied slots, in [0, 256] (R23). -/
  h : Fin 257
  /-- S[0..255], the unoccupied slots included (R22, R29). -/
  slots : Slots
  /-- M[0..65535] (R51). -/
  mem : Memory
  /-- The result register (R35). -/
  res : Word
  /-- The status register (R36). -/
  status : Status
  /-- The output events of the current launch, oldest first (R67). -/
  out : List Word
  /-- CODE; its length is CODE_LEN (R45, R55; log 6). -/
  code : List Byte
  /-- The block's parameters (R6; log 3). -/
  config : Config
  deriving DecidableEq, Repr

/-- The state the reset of a launch leaves (R41, R240), with an empty code buffer, because the interface supplies the
program (log 7), and the spec's default parameters (log 2, log 4). -/
def State.reset : State :=
  { ip := 0, h := 0, slots := [], mem := [], res := 0, status := .running, out := [], code := [], config := defaultConfig }

/-- Power-on, before any launch (R42, R242): as reset, and Idle. -/
def State.powerOn : State :=
  { ip := 0, h := 0, slots := [], mem := [], res := 0, status := .idle, out := [], code := [], config := defaultConfig }

end Sys2Proof.Machine
end

