-- ==== Sys2Proof/Machine/Ops.lean ====
section
/-! DEFINITION. The pseudocode primitives of 00_scope.md R10: the array accesses, the stack primitives push, pop, top and
settop (10_state.md R24 to R27), memory reads and writes (20_memory.md R52, R53), Emit and its rendering (R67, R68), and
the two ways a launch ends, `halt` and `raise` (R10, R206, R210). -/

namespace Sys2Proof.Machine

/-! ## Cell arrays in canonical form -/

/-- The value at an index; an unlisted one holds 0 (R41). -/
def Cells.read : List Cell → Nat → Word
  | [], _ => 0
  | (b, w) :: rest, a => if b = a then w else Cells.read rest a

/-- The array without an entry for the index. -/
def Cells.erase (c : List Cell) (a : Nat) : List Cell := c.filter fun p => decide (p.1 ≠ a)

/-- Put an entry before the first one of a larger index. -/
def Cells.insert : List Cell → Nat → Word → List Cell
  | [], a, v => [(a, v)]
  | (b, w) :: rest, a, v => if a < b then (a, v) :: (b, w) :: rest else (b, w) :: Cells.insert rest a v

/-- Write a value: a zero is left unlisted, so equal arrays are equal lists. -/
def Cells.write (c : List Cell) (a : Nat) (v : Word) : List Cell :=
  if v = 0 then Cells.erase c a else Cells.insert (Cells.erase c a) a v

/-- Indexes strictly rising from `low`, all below `size`, and no zero listed. -/
def Cells.wfFrom (size : Nat) : Nat → List Cell → Bool
  | _, [] => true
  | low, (a, v) :: rest => decide (low ≤ a) && decide (a < size) && decide (v ≠ 0) && Cells.wfFrom size (a + 1) rest

/-- The canonical form of the memory_array: 65536 cells (R51). -/
def Memory.wf (m : Memory) : Bool := Cells.wfFrom 65536 0 m

/-- The canonical form of the stack_array: 256 slots (R22). -/
def Slots.wf (s : Slots) : Bool := Cells.wfFrom 256 0 s

/-! ## Field updates -/

def State.withIp (s : State) (ip : Nat) : State := { s with ip := ip }
def State.withStack (s : State) (h : Fin 257) (slots : Slots) : State := { s with h := h, slots := slots }
def State.withMem (s : State) (mem : Memory) : State := { s with mem := mem }
def State.withRes (s : State) (v : Word) : State := { s with res := v }
def State.withStatus (s : State) (st : Status) : State := { s with status := st }
def State.withOut (s : State) (out : List Word) : State := { s with out := out }
def State.withCode (s : State) (code : List Byte) : State := { s with code := code }
def State.withConfig (s : State) (c : Config) : State := { s with config := c }

/-! ## Sequencing -/

/-- What a piece of pseudocode does: it goes on with a value and a state, or it ends the launch, and then no later line
runs (R10). -/
inductive Act (α : Type) where
  | go (a : α) (s : State)
  | ended (s : State)
  deriving DecidableEq, Repr

/-- Lines run in the order written (R10). -/
def Act.bind {α β : Type} (m : Act α) (k : α → State → Act β) : Act β :=
  match m with
  | .go a s => k a s
  | .ended s => .ended s

/-- The state in which a piece of pseudocode leaves the machine, whether it completed or ended the launch (R93). -/
def Act.final {α : Type} : Act α → State
  | .go _ s => s
  | .ended s => s

/-- A step that ran this pseudocode. It always leaves a next state: ending a launch only sets `status` (R91, R210). -/
def Act.outcome {α : Type} (m : Act α) : Host.Outcome State Fault Refusal := .next m.final

/-! ## Ending a launch -/

/-- `halt o`: the launch ends with an architected outcome. Nothing but `status` changes and nothing is rolled back
(R91, R93, R210). The block has no trap entry and no return (R200, R211). -/
def halt {α : Type} (o : RunOutcome) (s : State) : Act α := .ended (s.withStatus (.halted o))

/-- `raise Fault(f)`: the launch ends in the faulted state (R91, R206). The other fields stay as the pseudocode left them,
the first reading R93 gives (log 1). -/
def raise {α : Type} (f : Fault) (s : State) : Act α := .ended (s.withStatus (.faulted f))

/-! ## The stack_array -/

/-- S[i] (R22). -/
def State.slot (s : State) (i : Nat) : Word := Cells.read s.slots i

/-- The occupied slots S[0] .. S[h-1], bottom first, as the spec writes a stack (R11, R23). -/
def State.occupied (s : State) : List Word := (List.range s.h.val).map s.slot

/-- push (R24). -/
def push (v : Word) (s : State) : Act Unit :=
  if hfull : s.h.val = 256 then raise .stackOverflow s
  else .go () (s.withStack ⟨s.h.val + 1, by omega⟩ (Cells.write s.slots s.h.val v))

/-- pop (R25): the slot keeps its value and is no longer occupied (R29). -/
def pop (s : State) : Act Word :=
  if s.h.val = 0 then raise .stackUnderflow s
  else .go (s.slot (s.h.val - 1)) (s.withStack ⟨s.h.val - 1, by omega⟩ s.slots)

/-- top (R26). -/
def top (s : State) : Act Word :=
  if s.h.val = 0 then raise .stackUnderflow s else .go (s.slot (s.h.val - 1)) s

/-- settop (R27). -/
def settop (v : Word) (s : State) : Act Unit :=
  if s.h.val = 0 then raise .stackUnderflow s
  else .go () (s.withStack s.h (Cells.write s.slots (s.h.val - 1) v))

/-! ## The memory_array -/

/-- MemRead(a, 1): never faults, no side effect (R52). -/
def State.load (s : State) (a : Addr) : Word := Cells.read s.mem a.toNat

/-- MemWrite(a, 1, v): the whole cell and nothing else (R53). -/
def State.store (s : State) (a : Addr) (v : Word) : State := s.withMem (Cells.write s.mem a.toNat v)

/-! ## The output sink -/

/-- Emit(v): append to the launch's output sequence (R67). -/
def State.emit (s : State) (v : Word) : State := s.withOut (s.out ++ [v])

/-- The decimal digits of a number, most significant first, at most `fuel` of them; 0 is the single digit 0. -/
def decimalDigits : Nat → Nat → List Nat
  | 0, _ => []
  | fuel + 1, n => if n < 10 then [n] else decimalDigits fuel (n / 10) ++ [n % 10]

/-- The line an output event is rendered as (R68): unsigned decimal digits in ASCII, then a line feed 0x0A. 20 digits hold
every 64-bit value. PRESUMED by the spec itself (D11, GK4), unsafe: the text is its choice, only `out` is architected
(log 13). -/
def renderLine (v : Word) : List Byte :=
  (decimalDigits 20 v.toNat).map (fun d => BitVec.ofNat 8 (48 + d)) ++ [0x0A]

/-- The text the sink has received in the current launch (R67, R68). -/
def State.outputText (s : State) : List Byte := s.out.flatMap renderLine

/-! ## The launch reset -/

/-- Reset() (R240): every piece of state takes its launch reset value (R41); CODE and the configuration are no state. -/
def State.launchReset (s : State) : State :=
  { s with ip := 0, h := 0, slots := [], mem := [], res := 0, status := .running, out := [] }

end Sys2Proof.Machine
end

