-- ==== Sys2Proof/Machine/Flags.lean ====
section
/-! DEFINITION. The block has no flags (10_state.md R37). What takes their place: the comparison results 0 and 1 on the stack
(45_comparison.md R160) and the test of a popped condition (44_control_transfer.md R151, R152). Comparisons are of unsigned
numbers (00_scope.md R8). -/

namespace Sys2Proof.Machine

/-- bool64 (R8). -/
def bool64 (c : Bool) : Word := if c then 1 else 0

def cmpEqual (l r : Word) : Bool := decide (l.toNat = r.toNat)
def cmpLess (l r : Word) : Bool := decide (l.toNat < r.toNat)
def cmpLessOrEqual (l r : Word) : Bool := decide (l.toNat ≤ r.toNat)
def cmpGreater (l r : Word) : Bool := decide (l.toNat > r.toNat)
def cmpGreaterOrEqual (l r : Word) : Bool := decide (l.toNat ≥ r.toNat)

/-- Any nonzero value counts as true (R151); only 0 counts as false (R152). -/
def conditionHolds (c : Word) : Bool := decide (c ≠ 0)

end Sys2Proof.Machine
end

