-- ==== Sys2Proof/Machine/Operands.lean ====
section
/-! DEFINITION. The operand forms: immediates used as values, addresses and targets (30_encoding.md R76), addresses made from
popped values (20_memory.md R54), and the conventions of binary and top-of-stack operations (43_arithmetic.md R140). -/

namespace Sys2Proof.Machine

/-- zext_64(imm16) (R7, R76). -/
def zext64 (imm : Imm) : Word := imm.setWidth 64

/-- The address a popped value stands for under a policy; none is out of range (R54). -/
def addressOf (p : AddressPolicy) (v : Word) : Option Addr :=
  match p with
  | .truncate16 => some (v.extractLsb' 0 16)
  | .faultIfWide => if v.toNat ≥ 65536 then none else some (v.extractLsb' 0 16)

/-- AddrOf(v) (R54). -/
def addrOf (v : Word) (s : State) : Act Addr :=
  match addressOf s.config.addressPolicy v with
  | some a => .go a s
  | none => raise .addressOutOfRange s

/-- A binary stack operation: `r <- pop(); l <- top(); settop(l OP r)` (R140). -/
def binaryOp (op : Word → Word → Word) (s : State) : Act Unit :=
  (pop s).bind fun r s => (top s).bind fun l s => settop (op l r) s

/-- A stack-stack comparison (R160). -/
def compareOp (cmp : Word → Word → Bool) (s : State) : Act Unit := binaryOp (fun l r => bool64 (cmp l r)) s

/-- An operation on the top in place: `t <- top(); settop(OP t)` (R122, R142, R166). -/
def topOp (op : Word → Word) (s : State) : Act Unit := (top s).bind fun t s => settop (op t) s

/-- `ip <- zext(target16)` (R31, R153). -/
def jumpTo (target : Imm) (s : State) : State := s.withIp target.toNat

/-- `c <- pop(); if the test holds then ip <- zext(t)` (R151, R152). -/
def conditionalJump (test : Word → Bool) (target : Imm) (s : State) : Act Unit :=
  (pop s).bind fun c s => if test c then .go () (jumpTo target s) else .go () s

end Sys2Proof.Machine
end

