-- ==== Sys2Proof/Machine/Arithmetic.lean ====
section
/-! DEFINITION. Arithmetic instructions (43_arithmetic.md): unsigned 64-bit integers modulo 2^64 (R8, R146). -/

namespace Sys2Proof.Machine

/-- `a +64 b` (R8). -/
def add64 (a b : Word) : Word := a + b

/-- `a -64 b` (R8). -/
def sub64 (a b : Word) : Word := a - b

/-- `a *64 b` (R8). -/
def mul64 (a b : Word) : Word := a * b

/-- `a /64 b`, the floor quotient; used for b ≠ 0 only (R8, R144; log 17). -/
def div64 (a b : Word) : Word := BitVec.ofNat 64 (a.toNat / b.toNat)

/-- ADD (R141). -/
def execAdd (s : State) : Host.Outcome State Fault Refusal := (binaryOp add64 s).outcome

/-- ADD_IMM (R142). -/
def execAddImm (imm : Imm) (s : State) : Host.Outcome State Fault Refusal :=
  (topOp (fun t => add64 t (zext64 imm)) s).outcome

/-- SUB (R143). -/
def execSub (s : State) : Host.Outcome State Fault Refusal := (binaryOp sub64 s).outcome

/-- DIV (R144): the zero check stands between the pop and the read of the dividend, and the pop is kept. -/
def execDiv (s : State) : Host.Outcome State Fault Refusal :=
  ((pop s).bind fun r s =>
    if r = 0 then halt .divisionByZero s
    else (top s).bind fun l s => settop (div64 l r) s).outcome

/-- MUL (R145). -/
def execMul (s : State) : Host.Outcome State Fault Refusal := (binaryOp mul64 s).outcome

end Sys2Proof.Machine
end

