-- ==== Sys2Proof/Machine/Comparison.lean ====
section
/-! DEFINITION. Comparison instructions (45_comparison.md): unsigned, the result is exactly 0 or 1 (R160). -/

namespace Sys2Proof.Machine

/-- EQUAL (R161). -/
def execEqual (s : State) : Host.Outcome State Fault Refusal := (compareOp cmpEqual s).outcome

/-- LESS (R162). -/
def execLess (s : State) : Host.Outcome State Fault Refusal := (compareOp cmpLess s).outcome

/-- LESS_OR_EQUAL (R163). -/
def execLessOrEqual (s : State) : Host.Outcome State Fault Refusal := (compareOp cmpLessOrEqual s).outcome

/-- GREATER (R164). -/
def execGreater (s : State) : Host.Outcome State Fault Refusal := (compareOp cmpGreater s).outcome

/-- GREATER_OR_EQUAL (R165). -/
def execGreaterOrEqual (s : State) : Host.Outcome State Fault Refusal := (compareOp cmpGreaterOrEqual s).outcome

/-- GREATER_OR_EQUAL_IMM (R166): the height does not change (90_conflicts.md C2). -/
def execGreaterOrEqualImm (imm : Imm) (s : State) : Host.Outcome State Fault Refusal :=
  (topOp (fun t => bool64 (cmpGreaterOrEqual t (zext64 imm))) s).outcome

end Sys2Proof.Machine
end

