-- ==== Sys2Proof/Machine/ControlTransfer.lean ====
section
/-! DEFINITION. Control transfer instructions (44_control_transfer.md). JUMP's immediate has been peeked at, the conditional
jumps' immediate consumed (30_encoding.md R74, R75), so a jump that is not taken leaves `ip` past the instruction. -/

namespace Sys2Proof.Machine

/-- JUMP (R150). -/
def execJump (target : Imm) (s : State) : Host.Outcome State Fault Refusal := (Act.go () (jumpTo target s)).outcome

/-- JUMP_IF_TRUE (R151). -/
def execJumpIfTrue (target : Imm) (s : State) : Host.Outcome State Fault Refusal :=
  (conditionalJump conditionHolds target s).outcome

/-- JUMP_IF_FALSE (R152). -/
def execJumpIfFalse (target : Imm) (s : State) : Host.Outcome State Fault Refusal :=
  (conditionalJump (fun c => !conditionHolds c) target s).outcome

end Sys2Proof.Machine
end

