-- ==== Sys2Proof/Machine/PushMemory.lean ====
section
/-! DEFINITION. Push and memory instructions (41_push_and_memory.md). Each meaning starts after the opcode and the immediate
have been read (40_dispatch_engine.md R108, part 4). -/

namespace Sys2Proof.Machine

/-- LOAD_ADD_MEM_IMM's sum, `t +64 MemRead(a, 1)` (R122, R8). -/
def addCell (s : State) (a : Addr) (t : Word) : Word := t + s.load a

/-- PUSH_IMM (R120). -/
def execPushImm (imm : Imm) (s : State) : Host.Outcome State Fault Refusal := (push (zext64 imm) s).outcome

/-- LOAD_MEM_IMM (R121). -/
def execLoadMemImm (a : Imm) (s : State) : Host.Outcome State Fault Refusal := (push (s.load a) s).outcome

/-- LOAD_ADD_MEM_IMM (R122). -/
def execLoadAddMemImm (a : Imm) (s : State) : Host.Outcome State Fault Refusal := (topOp (addCell s a) s).outcome

/-- STORE_MEM_IMM (R123). -/
def execStoreMemImm (a : Imm) (s : State) : Host.Outcome State Fault Refusal :=
  ((pop s).bind fun v s => .go () (s.store a v)).outcome

/-- LOAD_INDIRECT (R124). -/
def execLoadIndirect (s : State) : Host.Outcome State Fault Refusal :=
  ((pop s).bind fun v s => (addrOf v s).bind fun a s => push (s.load a) s).outcome

/-- STORE_INDIRECT (R125): the top is the value, the slot below it the address. -/
def execStoreIndirect (s : State) : Host.Outcome State Fault Refusal :=
  ((pop s).bind fun val s => (pop s).bind fun v s => (addrOf v s).bind fun a s => .go () (s.store a val)).outcome

end Sys2Proof.Machine
end

