-- ==== Sys2Proof/Machine/ResultOutput.lean ====
section
/-! DEFINITION. Result, output and termination instructions, and the undefined byte (46_result_output_termination.md). -/

namespace Sys2Proof.Machine

/-- POP_RESULT (R170). -/
def execPopResult (s : State) : Host.Outcome State Fault Refusal :=
  ((pop s).bind fun v s => .go () (s.withRes v)).outcome

/-- DONE (R171). -/
def execDone (s : State) : Host.Outcome State Fault Refusal := (halt (α := Unit) .success s).outcome

/-- PRINT (R172). -/
def execPrint (s : State) : Host.Outcome State Fault Refusal :=
  ((pop s).bind fun v s => .go () (s.emit v)).outcome

/-- ABORT (R173). -/
def execAbort (s : State) : Host.Outcome State Fault Refusal := (halt (α := Unit) .endOfStream s).outcome

/-- UNDEFINED(b) (R174): whatever the byte. -/
def execUndefined (_b : Byte) (s : State) : Host.Outcome State Fault Refusal :=
  (halt (α := Unit) .unknownOpcode s).outcome

end Sys2Proof.Machine
end

