-- ==== Sys2Proof/Machine/StackManip.lean ====
section
/-! DEFINITION. Stack manipulation instructions (42_stack_manipulation.md). -/

namespace Sys2Proof.Machine

/-- DUP (R130). -/
def execDup (s : State) : Host.Outcome State Fault Refusal := ((top s).bind fun t s => push t s).outcome

/-- DISCARD (R131). -/
def execDiscard (s : State) : Host.Outcome State Fault Refusal := (pop s).outcome

end Sys2Proof.Machine
end

