-- ==== Sys2Proof/Machine/Dispatch.lean ====
section
/-! DEFINITION. `Execute(i)` of 40_dispatch_engine.md R91: one arm for each instruction. -/

namespace Sys2Proof.Machine

def exec (i : Instr) (s : State) : Host.Outcome State Fault Refusal :=
  match i with
  | .abort => Sys2Proof.Machine.execAbort s
  | .pushImm imm => Sys2Proof.Machine.execPushImm imm s
  | .loadMemImm a => Sys2Proof.Machine.execLoadMemImm a s
  | .loadAddMemImm a => Sys2Proof.Machine.execLoadAddMemImm a s
  | .storeMemImm a => Sys2Proof.Machine.execStoreMemImm a s
  | .loadIndirect => Sys2Proof.Machine.execLoadIndirect s
  | .storeIndirect => Sys2Proof.Machine.execStoreIndirect s
  | .dup => Sys2Proof.Machine.execDup s
  | .discard => Sys2Proof.Machine.execDiscard s
  | .add => Sys2Proof.Machine.execAdd s
  | .addImm imm => Sys2Proof.Machine.execAddImm imm s
  | .sub => Sys2Proof.Machine.execSub s
  | .div => Sys2Proof.Machine.execDiv s
  | .mul => Sys2Proof.Machine.execMul s
  | .jump t => Sys2Proof.Machine.execJump t s
  | .jumpIfTrue t => Sys2Proof.Machine.execJumpIfTrue t s
  | .jumpIfFalse t => Sys2Proof.Machine.execJumpIfFalse t s
  | .equal => Sys2Proof.Machine.execEqual s
  | .less => Sys2Proof.Machine.execLess s
  | .lessOrEqual => Sys2Proof.Machine.execLessOrEqual s
  | .greater => Sys2Proof.Machine.execGreater s
  | .greaterOrEqual => Sys2Proof.Machine.execGreaterOrEqual s
  | .greaterOrEqualImm imm => Sys2Proof.Machine.execGreaterOrEqualImm imm s
  | .popResult => Sys2Proof.Machine.execPopResult s
  | .done => Sys2Proof.Machine.execDone s
  | .print => Sys2Proof.Machine.execPrint s
  | .undefined b => Sys2Proof.Machine.execUndefined b s

end Sys2Proof.Machine
end

