-- ==== Sys2Proof/Machine/Fetch.lean ====
section
/-! DEFINITION. The bytecode_decoder's reads of the code space (20_memory.md R55; 30_encoding.md R73 to R75) and the fetch of
one instruction in the order of 40_dispatch_engine.md R108. -/

namespace Sys2Proof.Machine

/-- CodeRead(k): the byte at an offset below CODE_LEN, else the fault (R55). -/
def codeRead (k : Nat) (s : State) : Act Byte :=
  match s.code[k]? with
  | some b => .go b s
  | none => raise .fetchOutOfBounds s

/-- FetchOpcode (R73): `ip` moves only when the byte was read. -/
def fetchOpcode (s : State) : Act Byte :=
  (codeRead s.ip s).bind fun b s => .go b (s.withIp (s.ip + 1))

/-- PeekImm (R75). -/
def peekImm (s : State) : Act Imm :=
  (codeRead s.ip s).bind fun hi s => (codeRead (s.ip + 1) s).bind fun lo s => .go (joinImm hi lo) s

/-- FetchImm (R74). -/
def fetchImm (s : State) : Act Imm :=
  (codeRead s.ip s).bind fun hi s => (codeRead (s.ip + 1) s).bind fun lo s => .go (joinImm hi lo) (s.withIp (s.ip + 2))

/-- How an opcode reads its immediate: JUMP alone peeks, the other F3 opcodes consume, F1 reads none (R72, R75, R77). -/
def readImm (m : Mnemonic) (s : State) : Act Imm :=
  if m.hasImm then (if m = .jump then peekImm s else fetchImm s) else .go 0 s

/-- Opcode fetch, dispatch, immediate: the first three parts of a step (R91, R108). An undefined byte reads nothing more
(R80). -/
def fetchInstr (s : State) : Act Instr :=
  (fetchOpcode s).bind fun b s =>
    match decodeOpcode s.config b with
    | none => .go (.undefined b) s
    | some m => (readImm m s).bind fun imm s => .go (m.instr imm) s

/-- The first n bytes, zero bytes added where there are fewer. -/
def takePadded (n : Nat) (l : List Byte) : List Byte := l.take n ++ List.replicate (n - l.length) 0

end Sys2Proof.Machine
end

