-- ==== Sys2Proof/Machine/Step.lean ====
section
/-! DEFINITION. One step of the dispatch_engine (40_dispatch_engine.md R91, R92), and where a program stands. -/

namespace Sys2Proof.Machine

/-- Step() (R91): fetch, decode, execute, while Running. In any other status the engine takes no step (R92): a faulted
launch stops with its fault, an idle or halted one has no move (DESIGN CHOICE, safe; log 9). -/
def step (s : State) : Host.Outcome State Fault Refusal :=
  match s.status with
  | .running =>
    match fetchInstr s with
    | .go i s' => exec i s'
    | .ended s' => .next s'
  | .idle => .refused .noLaunchYet
  | .halted o => .refused (.launchEnded o)
  | .faulted f => .fault f

/-- s with an instruction's bytes in the code buffer at `ip`, and Running, so that the next step runs it. It stands for the
host's supply of CODE (R99; log 7). -/
def State.withFetchWord (s : State) (nbits w : Nat) : State :=
  (s.withCode (takePadded s.ip s.code ++ tableBytes nbits w ++ s.code.drop (s.ip + 3))).withStatus .running

end Sys2Proof.Machine
end

