-- ==== Sys2Proof/Machine/Launch.lean ====
section
/-! DEFINITION. The block's interface (40_dispatch_engine.md R99 to R107): `interpret`, `get_result`, the outcome codes. -/

namespace Sys2Proof.Machine

/-- The 2-bit OUTCOME_CODE (R100). The spec's own choice (D8), unsafe for a claim about numbers (log 14). -/
def RunOutcome.code : RunOutcome → BitVec 2
  | .success => 0
  | .divisionByZero => 1
  | .unknownOpcode => 2
  | .endOfStream => 3

/-- The start of a launch: CODE is supplied and the state reset (R99, R240). The host has no such move while a launch runs
(R104; log 10). -/
def launch (code : List Byte) (s : State) : Option State :=
  if s.status = .running then none else some (s.launchReset.withCode code)

/-- get_result(): `res`, no effect on the state, at any time the block is not Running (R101, R104; log 10, log 15). -/
def getResult (s : State) : Option Word := if s.status = .running then none else some s.res

/-- How an observed launch stands: it returned an outcome, it faulted (no architected return), or it is still running. The
last is no end of the launch (R99, R105, R106; log 12). -/
inductive LaunchView where
  | returned (o : RunOutcome) (s : State)
  | faulted (f : Fault) (s : State)
  | stillRunning (s : State)
  deriving DecidableEq, Repr

/-- What the caller sees of a state (R99, R105). -/
def viewOf (s : State) : LaunchView :=
  match s.status with
  | .halted o => .returned o s
  | .faulted f => .faulted f s
  | .running | .idle => .stillRunning s

/-- `while status = Running: Step()` for at most `fuel` steps (R99, R106). -/
def runLoop : Nat → State → LaunchView
  | 0, s => viewOf s
  | fuel + 1, s =>
    match step s with
    | .next s' => runLoop fuel s'
    | .fault _ | .refused _ => viewOf s

/-- interpret(CODE) from a state of the block, watched for at most `fuel` steps (R99). -/
def interpret (fuel : Nat) (code : List Byte) (s : State) : Option LaunchView := (launch code s).map (runLoop fuel)

end Sys2Proof.Machine
end

