-- ==== Sys2Proof/Safety.lean ====
section
/-! DEFINITION. The words statements are written in: the invariant of the machine, what a run is, when it is safe, and what
two states have in common. -/

namespace Sys2Proof.Machine

/-! ## Runs -/

/-- `n` steps lead from one state to another, no step stopping. -/
def StepsTo (n : Nat) (s t : State) : Prop := Host.Core.run Sys2Proof.core n s = .next t

/-- The state the reset of a launch leaves with this code on a block of this configuration (R240); no earlier state is part
of it. -/
def State.launched (c : Config) (code : List Byte) : State := (State.reset.withConfig c).withCode code

/-! ## The invariant -/

/-- Both arrays are in canonical form within their sizes (R22, R51), and `ip` obeys R32. (The bound on `h`, R23, is its
type's.) -/
def State.Inv (s : State) : Prop :=
  Slots.wf s.slots = true ∧ Memory.wf s.mem = true ∧ s.ip ≤ max s.code.length 65535

/-! ## Comparing two states -/

/-- Every memory cell reads the same. -/
def SameMemory (s t : State) : Prop := ∀ a : Addr, t.load a = s.load a

/-- Every memory cell but one reads the same. -/
def SameMemoryBut (a : Addr) (s t : State) : Prop := ∀ b : Addr, b ≠ a → t.load b = s.load b

/-- Every stack slot, occupied or not, reads the same. -/
def SameSlots (s t : State) : Prop := ∀ k : Nat, t.slot k = s.slot k

/-- Every stack slot but one reads the same. -/
def SameSlotsBut (j : Nat) (s t : State) : Prop := ∀ k : Nat, k ≠ j → t.slot k = s.slot k

/-- The registers other than the stack cursor: ip, res, status, the output, and the launch's inputs. -/
def SameRegisters (s t : State) : Prop :=
  t.ip = s.ip ∧ t.res = s.res ∧ t.status = s.status ∧ t.out = s.out ∧ t.code = s.code ∧ t.config = s.config

/-- The answer is a next state that records the fault in its status register (R206). -/
def FaultsWith (f : Fault) (o : Host.Outcome State Fault Refusal) : Prop := ∃ t, o = .next t ∧ t.status = .faulted f

/-- An answer with a function applied to its next state. -/
def mapNext (g : State → State) : Host.Outcome State Fault Refusal → Host.Outcome State Fault Refusal
  | .next s => .next (g s)
  | .fault f => .fault f
  | .refused r => .refused r

/-- The same block with another DISPATCH_MODE. -/
def State.withDispatch (d : DispatchMode) (s : State) : State := s.withConfig { s.config with dispatchMode := d }

/-- Two states that differ at most in the contents of unoccupied stack slots (R29). -/
def SameButUnoccupied (s t : State) : Prop :=
  t.ip = s.ip ∧ t.h = s.h ∧ (∀ k < s.h.val, t.slot k = s.slot k) ∧ t.mem = s.mem ∧ t.res = s.res ∧
    t.status = s.status ∧ t.out = s.out ∧ t.code = s.code ∧ t.config = s.config

/-! ## What an instruction asks of the stack and does to memory, as the rules list it -/

/-- The least height at which the instruction's rule raises no StackUnderflow (41 to 46); DIV is its own case (R144). -/
def slotsNeeded : Instr → Nat
  | .storeIndirect | .add | .sub | .div | .mul | .equal | .less | .lessOrEqual | .greater | .greaterOrEqual => 2
  | .loadAddMemImm _ | .storeMemImm _ | .loadIndirect | .dup | .discard | .addImm _ | .jumpIfTrue _ | .jumpIfFalse _
  | .greaterOrEqualImm _ | .popResult | .print => 1
  | .abort | .pushImm _ | .loadMemImm _ | .jump _ | .done | .undefined _ => 0

/-- The instructions whose rule names StackOverflow (R120, R121, R130). -/
def pushesOntoFull : Instr → Bool
  | .pushImm _ | .loadMemImm _ | .dup => true
  | .abort | .loadAddMemImm _ | .storeMemImm _ | .loadIndirect | .storeIndirect | .discard | .add | .addImm _ | .sub
  | .div | .mul | .jump _ | .jumpIfTrue _ | .jumpIfFalse _ | .equal | .less | .lessOrEqual | .greater
  | .greaterOrEqual | .greaterOrEqualImm _ | .popResult | .done | .print | .undefined _ => false

/-- The popped value an indirect instruction uses as an address: the top for LOAD_INDIRECT (R124), the slot below it for
STORE_INDIRECT (R125). -/
def addressOperand (i : Instr) (s : State) : Option Word :=
  match i, s.occupied.reverse with
  | .loadIndirect, v :: _ => some v
  | .storeIndirect, _ :: v :: _ => some v
  | _, _ => none

/-- The cell an instruction stores to and the value it stores: only STORE_MEM_IMM (R123) and STORE_INDIRECT (R125, with the
address computed by AddrOf, R54) store. -/
def storeOf (i : Instr) (s : State) : Option (Addr × Word) :=
  match i, s.occupied.reverse with
  | .storeMemImm a, v :: _ => some (a, v)
  | .storeIndirect, val :: v :: _ => (addressOf s.config.addressPolicy v).map fun a => (a, val)
  | _, _ => none

/-! ## How an instruction's bytes reach its meaning -/

/-- `m` is a format F1 opcode (R71, R72): its encoding is its opcode byte, and a step that finds that byte at `ip` runs the
instruction with `ip` past it. -/
def IsF1 (m : Mnemonic) (i : Instr) : Prop :=
  (∀ c, encode c i = [c.opcodeValue m]) ∧
  ∀ s : State, s.status = .running → s.config.wellFormed = true → s.code[s.ip]? = some (s.config.opcodeValue m) →
    step s = exec i (s.withIp (s.ip + 1))

/-- `m` is a format F3 opcode (R71, R72): its encoding is its opcode byte and the immediate's high and low byte; a fetch that
finds the three bytes at `ip` answers the instruction with `ip` moved by `advance`, and a step runs it from there; a step
that finds the opcode byte but not both others inside the buffer faults (R55, R85), with FetchOutOfBounds or with a stack
fault that applies too: which of two is recorded no claim may depend on (R208). -/
def IsF3 (m : Mnemonic) (mk : Imm → Instr) (advance : Nat) : Prop :=
  (∀ c imm, encode c (mk imm) = [c.opcodeValue m, immHigh imm, immLow imm]) ∧
  ∀ s : State, s.status = .running → s.config.wellFormed = true → s.code[s.ip]? = some (s.config.opcodeValue m) →
    (∀ imm, s.code[s.ip + 1]? = some (immHigh imm) → s.code[s.ip + 2]? = some (immLow imm) →
      fetchInstr s = .go (mk imm) (s.withIp (s.ip + advance)) ∧ step s = exec (mk imm) (s.withIp (s.ip + advance))) ∧
    (s.code.length ≤ s.ip + 2 → ∃ f, FaultsWith f (step s) ∧
      (f = .fetchOutOfBounds ∨ f = .stackUnderflow ∧ s.h.val < slotsNeeded (mk 0) ∨
        f = .stackOverflow ∧ pushesOntoFull (mk 0) = true ∧ s.h.val = 256))

/-! ## Well-formed programs -/

/-- The next step of a running machine keeps R247's invariant 2 (every byte the decoder reads lies below CODE_LEN) and
invariant 1 (no pop, top or settop finds an empty stack, no push a full one). A DIV whose divisor is 0 reads no dividend
(R144). -/
def State.KeepsBounds (s : State) : Prop :=
  ∃ i rest, decode s.config (s.code.drop s.ip) = .ok (i, rest) ∧
    (slotsNeeded i ≤ s.h.val ∨ i = .div ∧ ∃ below, s.occupied = below ++ [0]) ∧
    (pushesOntoFull i = true → s.h.val ≤ 255)

/-- A well-formed program: the run from the reset state keeps invariants 1 and 2 at every step (R247). It may still hang, and
under FaultIfWide it may raise AddressOutOfRange, which is neither invariant's fault. -/
def WellFormedProgram (c : Config) (code : List Byte) : Prop :=
  ∀ n t, StepsTo n (State.launched c code) t → t.status = .running → t.KeepsBounds

/-- The faults a broken bound raises: the stack's (invariant 1) and the buffer's (invariant 2), R247. -/
def Fault.ofBounds : Fault → Bool
  | .stackUnderflow | .stackOverflow | .fetchOutOfBounds => true
  | .addressOutOfRange => false

/-! ## What a run has done -/

/-- The instruction a running machine is about to execute, and the state it executes it in; none while the machine is not
Running or its fetch faults. -/
def nextInstr (s : State) : Option (Instr × State) :=
  match s.status, fetchInstr s with
  | .running, .go i u => some (i, u)
  | _, _ => none

/-- The value POP_RESULT is about to pop into `res` (R170). -/
def resultAbout (s : State) : Option Word :=
  match nextInstr s with
  | some (.popResult, u) => u.occupied.getLast?
  | _ => none

/-- The value PRINT is about to emit (R172). -/
def eventAbout (s : State) : Option Word :=
  match nextInstr s with
  | some (.print, u) => u.occupied.getLast?
  | _ => none

/-- The value of the last POP_RESULT executed in the next n steps, or `d` if none is (R102). -/
def lastResult : Nat → State → Word → Word
  | 0, _, d => d
  | n + 1, s, d =>
    match step s with
    | .next t => lastResult n t ((resultAbout s).getD d)
    | .fault _ | .refused _ => d

/-- The values printed in the next n steps, oldest first (R67, R98). -/
def eventsOf : Nat → State → List Word
  | 0, _ => []
  | n + 1, s =>
    match step s with
    | .next t => (eventAbout s).toList ++ eventsOf n t
    | .fault _ | .refused _ => []

end Sys2Proof.Machine
end

