-- ==== Sys2Proof/Certificates/Slice0/Obligations.lean ====
section
/-! DEFINITION. Statements for the provers. A stack is written bottom first, as in 00_scope.md R11: `s.occupied = rest ++ [l, r]`
says that r is the top and l the slot below it. A clause about a model fault rests on the spec's own decisions D5, D6 and D7
(60_exceptions.md R206); it says which fault the status register records and nothing of the other fields (R93). -/

open Sys2Proof Sys2Proof.Machine

/-! ## Encoding and dispatch -/

/-- Words written out from R71 and the default opcode table of R79 (the spec's own default, marked as general knowledge:
log 2) decode to the instructions they stand for. -/
def Obligations.WordsWrittenOutFromTheFormatsDecode : Prop :=
  decode defaultConfig [0x01, 0x12, 0x34] = .ok (.pushImm 0x1234, []) ∧
  decode defaultConfig [0x06, 0x18] = .ok (.storeIndirect, [0x18]) ∧
  decode defaultConfig [0x07] = .ok (.dup, []) ∧
  decode defaultConfig [0x0C, 0x17, 0x18] = .ok (.div, [0x17, 0x18]) ∧
  decode defaultConfig [0x10, 0x00, 0x63, 0x01] = .ok (.jumpIfFalse 99, [0x01]) ∧
  decode defaultConfig [0x16, 0x03, 0xE8] = .ok (.greaterOrEqualImm 1000, []) ∧
  decode defaultConfig [0x18] = .ok (.done, []) ∧
  decode defaultConfig [0xFF, 0x01] = .ok (.undefined 0xFF, [0x01]) ∧
  decode defaultConfig [0x0E, 0x00] = .error (.immediateCutShort .jump)

/-- The default opcode table gives the 26 mnemonics the values R79 lists, 0x00 to 0x19 in its order, and leaves exactly the
bytes 0x1A to 0xFF undefined (R80). The spec marks the values as general knowledge (log 2). -/
def Obligations.DefaultOpcodeValuesAreTheTables : Prop :=
  Mnemonic.all.map defaultConfig.opcodeValue = (List.range 26).map (BitVec.ofNat 8) ∧
  Mnemonic.all =
    [.abort, .pushImm, .loadMemImm, .loadAddMemImm, .storeMemImm, .loadIndirect, .storeIndirect, .dup, .discard, .add,
     .addImm, .sub, .div, .mul, .jump, .jumpIfTrue, .jumpIfFalse, .equal, .less, .lessOrEqual, .greater, .greaterOrEqual,
     .greaterOrEqualImm, .popResult, .done, .print] ∧
  ∀ b : Byte, defaultConfig.isUndefinedByte b = true ↔ 0x1A ≤ b.toNat

/-- Decoding an encoded instruction gives it back, for every injective OPCODE_VALUE, either dispatch mode, every
well-formed instruction with every immediate, and whatever bytes follow (R70 to R72, R79 to R82). -/
def Obligations.DecodingAnEncodedInstructionGivesItBack : Prop :=
  ∀ (c : Config) (i : Instr) (rest : List Byte), c.wellFormed = true → i.wellFormed c = true →
    decode c (encode c i ++ rest) = .ok (i, rest)

/-- Whatever the decoder accepts is the encoding of the well-formed instruction it answers, so no two encodings mean the same
(R72, R80). -/
def Obligations.EncodingADecodedInstructionGivesItsBytes : Prop :=
  ∀ (c : Config) (bs rest : List Byte) (i : Instr), c.wellFormed = true → decode c bs = .ok (i, rest) →
    encode c i ++ rest = bs ∧ i.wellFormed c = true

/-- R96: the table has 256 entries; entry b is the handler of the mnemonic whose OPCODE_VALUE is b, or the fallback; the entry
is what the decoder selects under either mode, and a step at a byte whose entry is the fallback ends in UnknownOpcode; no
step changes the table and no instruction's own actions read it: with other opcode values an instruction does the same. -/
def Obligations.DispatchTableHoldsEachHandlerOrTheFallback : Prop :=
  (∀ c : Config, c.wellFormed = true →
    (dispatchTable c).length = 256 ∧
    (∀ (b : Byte) (m : Mnemonic), (dispatchTable c)[b.toNat]? = some (some m) ↔ c.opcodeValue m = b) ∧
    (∀ b : Byte, (dispatchTable c)[b.toNat]? = some none ↔ ∀ m, c.opcodeValue m ≠ b) ∧
    (∀ b : Byte, (dispatchTable c)[b.toNat]? = some (decodeOpcode c b))) ∧
  (∀ (s : State) (b : Byte), s.status = .running → s.config.wellFormed = true → s.code[s.ip]? = some b →
    (dispatchTable s.config)[b.toNat]? = some none →
    ∃ t, step s = .next t ∧ t.status = .halted .unknownOpcode) ∧
  (∀ s t : State, step s = .next t → dispatchTable t.config = dispatchTable s.config) ∧
  (∀ (i : Instr) (s : State) (v : Vector Byte 26),
    exec i (s.withConfig { s.config with opcodes := v }) =
      mapNext (fun t => t.withConfig { t.config with opcodes := v }) (exec i s))

/-- R97: the two dispatch modes are observably identical. From every state, after every number of steps, the run under
Indirect is the run under Direct: the same states but for the mode itself, and the same stops. -/
def Obligations.DirectAndIndirectDispatchRunIdentically : Prop :=
  ∀ (s : State) (n : Nat), s.config.wellFormed = true →
    Host.Core.run Sys2Proof.core n (s.withDispatch .indirect) =
      mapNext (State.withDispatch .indirect) (Host.Core.run Sys2Proof.core n (s.withDispatch .direct))

/-! ## The decoder and the step -/

/-- R73, R74, R75: FetchOpcode reads the byte at ip and moves ip by 1; FetchImm joins the two bytes at ip big-endian and
moves ip by 2; PeekImm reads the same and leaves ip; each faults with FetchOutOfBounds on a byte outside the buffer. -/
def Obligations.DecoderReadsBigEndianAndAdvances : Prop :=
  ∀ s : State,
    (∀ b, s.code[s.ip]? = some b → fetchOpcode s = .go b (s.withIp (s.ip + 1))) ∧
    (∀ hi lo, s.code[s.ip]? = some hi → s.code[s.ip + 1]? = some lo →
      ∃ imm : Imm, imm.toNat = hi.toNat * 256 + lo.toNat ∧
        fetchImm s = .go imm (s.withIp (s.ip + 2)) ∧ peekImm s = .go imm s) ∧
    (s.code.length ≤ s.ip → fetchOpcode s = raise .fetchOutOfBounds s) ∧
    (s.code.length ≤ s.ip + 1 →
      fetchImm s = raise .fetchOutOfBounds s ∧ peekImm s = raise .fetchOutOfBounds s)

/-- A step of a running machine whose bytes at ip decode to i is exec of i, in the state with ip moved past the bytes the
decoder consumed (all of the instruction; the opcode alone for JUMP, which peeks). -/
def Obligations.StepRunsTheDecodedInstruction : Prop :=
  ∀ (s : State) (i : Instr) (rest : List Byte), s.status = .running →
    decode s.config (s.code.drop s.ip) = .ok (i, rest) →
    step s = exec i (s.withIp (s.ip + i.ipAdvance))

/-- A step of a running machine whose ip is at or past CODE_LEN raises FetchOutOfBounds with ip unchanged (R55, R73; the
spec's own decision D5). -/
def Obligations.OpcodeFetchPastTheBufferFaults : Prop :=
  ∀ s : State, s.status = .running → s.code.length ≤ s.ip →
    ∃ t, step s = .next t ∧ t.status = .faulted .fetchOutOfBounds ∧ t.ip = s.ip

/-- The model's order of faults (R108's order of actions, the spec's own decision D15; log 19, and log 1 for R208): a step of
an F3 opcode whose immediate is cut short records FetchOutOfBounds whatever the stack, also where the instruction would find
it too short or full. R208 architects no choice between two faults, so this clause is the model's. -/
def Obligations.ImmediateFetchFaultsComeBeforeStackFaults : Prop :=
  ∀ (m : Mnemonic) (s : State), m.hasImm = true → s.status = .running → s.config.wellFormed = true →
    s.code[s.ip]? = some (s.config.opcodeValue m) → s.code.length ≤ s.ip + 2 →
    FaultsWith .fetchOutOfBounds (step s)

/-- R92: outside Running there is no step, whatever the rest of the state; and a launch leaves every such status. -/
def Obligations.NoStepOutsideRunning : Prop :=
  ∀ s : State,
    ((∃ t, step s = .next t) ↔ s.status = .running) ∧
    (∀ code, s.status ≠ .running → ∃ t, launch code s = some t ∧ t.status = .running)

/-! ## Launch and reset -/

/-- R240 and R41: a launch from any state that is not Running starts with every piece of state at its reset value, with the
supplied code and the configuration as it was. -/
def Obligations.LaunchResetsEveryPieceOfState : Prop :=
  ∀ (s : State) (code : List Byte), s.status ≠ .running →
    ∃ t, launch code s = some t ∧ t.ip = 0 ∧ t.h.val = 0 ∧ (∀ k, t.slot k = 0) ∧ (∀ a, t.load a = 0) ∧ t.res = 0 ∧
      t.status = .running ∧ t.out = [] ∧ t.code = code ∧ t.config = s.config

/-- Two launches of the same code on blocks of the same configuration are watched to do the same for any number of steps,
whatever ran before (the spec's inference R241). -/
def Obligations.LaunchForgetsEveryEarlierLaunch : Prop :=
  ∀ (s s' : State) (code : List Byte) (fuel : Nat), s.status ≠ .running → s'.status ≠ .running → s'.config = s.config →
    interpret fuel code s' = interpret fuel code s

/-- An answer of `interpret` does not depend on how long the launch is watched: with more steps it is the same, and running
out of steps is never an answer (R99, R106; the fuel is the model's, log 12). -/
def Obligations.InterpretAnswerIsStableUnderMoreSteps : Prop :=
  ∀ (s t : State) (code : List Byte) (n m : Nat) (o : RunOutcome), n ≤ m →
    interpret n code s = some (.returned o t) → interpret m code s = some (.returned o t) ∧ t.status = .halted o

/-- R205: a launch ends in Success if and only if it executes a DONE before any other terminal event. -/
def Obligations.SuccessExactlyWhenDoneIsReached : Prop :=
  ∀ (s s₀ : State) (code : List Byte), launch code s = some s₀ →
    ((∃ n t, interpret n code s = some (.returned .success t)) ↔
      ∃ n u v, StepsTo n s₀ u ∧ nextInstr u = some (.done, v))

/-- In a launch of a well-formed program every state reached can step, holds an outcome, or, under FaultIfWide only, has
recorded AddressOutOfRange (R247's definition of well-formed; the fault is the spec's own decision D7). -/
def Obligations.WellFormedProgramsStepUntilAnOutcome : Prop :=
  ∀ (s s₀ t : State) (code : List Byte) (n : Nat), launch code s = some s₀ → WellFormedProgram s.config code →
    StepsTo n s₀ t →
    (∃ u, step t = .next u) ∨ (∃ o, t.status = .halted o) ∨
      s.config.addressPolicy = .faultIfWide ∧ t.status = .faulted .addressOutOfRange

/-- R247: a launch starts from the reset state; it records a stack or fetch fault exactly when it breaks invariant 1 or 2, so
a program is well-formed exactly when its launch records none; and a launch that keeps both, forms no wide address under
FaultIfWide and never reaches DONE, ABORT, an undefined byte or a DIV by zero (invariant 3) runs forever. -/
def Obligations.BrokenBoundsFaultAndMissingTerminationHangs : Prop :=
  (∀ (s s₀ : State) (code : List Byte), launch code s = some s₀ → s₀ = State.launched s.config code) ∧
  (∀ s : State, s.status = .running →
    (s.KeepsBounds ↔ ¬∃ t f, step s = .next t ∧ t.status = .faulted f ∧ f.ofBounds = true)) ∧
  (∀ (c : Config) (code : List Byte), WellFormedProgram c code ↔
    ∀ n t f, StepsTo n (State.launched c code) t → t.status = .faulted f → f.ofBounds = false) ∧
  (∀ (c : Config) (code : List Byte), WellFormedProgram c code →
    (∀ n t, StepsTo n (State.launched c code) t → t.status ≠ .faulted .addressOutOfRange) →
    (∀ n t i u, StepsTo n (State.launched c code) t → nextInstr t = some (i, u) →
      i ≠ .done ∧ i ≠ .abort ∧ (∀ b, i ≠ .undefined b) ∧ ¬(i = .div ∧ ∃ below, u.occupied = below ++ [0])) →
    ∀ n, ∃ t, StepsTo n (State.launched c code) t ∧ t.status = .running)

/-- After any number of steps of a launch `res` is the value of the last POP_RESULT executed, or 0 if none was (the spec's
inference R102). -/
def Obligations.ResultIsTheLastPopped : Prop :=
  ∀ (s s₀ t : State) (code : List Byte) (n : Nat), launch code s = some s₀ → StepsTo n s₀ t →
    t.res = lastResult n s₀ 0

/-- R98: after any number of steps of a launch `out` is the values printed, one for each executed PRINT, in program order,
under either dispatch mode. -/
def Obligations.OutputIsThePrintedValuesInProgramOrder : Prop :=
  ∀ (s s₀ t : State) (code : List Byte) (n : Nat), launch code s = some s₀ → StepsTo n s₀ t →
    t.out = eventsOf n s₀

/-! ## Invariants and whole-machine rules -/

/-- The invariant holds at reset and at power-on. -/
def Obligations.ResetStateMeetsTheInvariant : Prop := State.reset.Inv ∧ State.powerOn.Inv

/-- Every step from every state that meets the invariant keeps it: canonical arrays within their sizes (R22, R51; log 8) and
ip at most max(CODE_LEN, 65535) (the spec's inference R32). So does every launch. -/
def Obligations.EveryStepKeepsTheInvariant : Prop :=
  (∀ s t : State, s.Inv → step s = .next t → t.Inv) ∧
  (∀ (s t : State) (code : List Byte), launch code s = some t → t.Inv)

/-- No step and no launch changes the configuration, and no step changes the code buffer (R38, R56, R65). -/
def Obligations.ConfigurationAndCodeAreConstant : Prop :=
  (∀ s t : State, step s = .next t → t.config = s.config ∧ t.code = s.code) ∧
  (∀ (s t : State) (code : List Byte), launch code s = some t → t.config = s.config)

/-- R56: no instruction writes the code space, and none reads it as data: with another code buffer an instruction does the
same to everything else. -/
def Obligations.CodeIsNeitherWrittenNorReadAsData : Prop :=
  ∀ (i : Instr) (s : State) (code : List Byte),
    exec i (s.withCode code) = mapNext (fun t => t.withCode code) (exec i s)

/-- R31: ip changes in only four ways. The opcode fetch adds 1, a consuming immediate fetch 2, a peeking one 0, a taken jump
overwrites it with the target, and an instruction's own actions leave it alone otherwise. -/
def Obligations.InstructionPointerChangesInFourWays : Prop :=
  (∀ (s t : State) (b : Byte), fetchOpcode s = .go b t → t = s.withIp (s.ip + 1)) ∧
  (∀ (s t : State) (imm : Imm), fetchImm s = .go imm t → t = s.withIp (s.ip + 2)) ∧
  (∀ (s t : State) (imm : Imm), peekImm s = .go imm t → t = s) ∧
  (∀ (i : Instr) (s t : State), exec i s = .next t →
    t.ip = s.ip ∨ ∃ target : Imm, (i = .jump target ∨ i = .jumpIfTrue target ∨ i = .jumpIfFalse target) ∧
      t.ip = target.toNat)

/-- R35: only POP_RESULT writes `res`, get_result reads it, and no instruction does: with another value in `res` an instruction does the same,
POP_RESULT with a nonempty stack even to `res`. -/
def Obligations.OnlyPopResultTouchesTheResultRegister : Prop :=
  ∀ (i : Instr) (s : State) (v : Word),
    (i ≠ .popResult → exec i (s.withRes v) = mapNext (fun t => t.withRes v) (exec i s)) ∧
    (s.h.val ≠ 0 → exec .popResult (s.withRes v) = exec .popResult s) ∧
    (s.h.val = 0 → exec .popResult (s.withRes v) = mapNext (fun t => t.withRes v) (exec .popResult s)) ∧
    (s.status ≠ .running → getResult s = some s.res)

/-- R67: only PRINT appends to `out`, one event at a time, and nothing reads it back: with earlier events put before the
sequence an instruction does the same and keeps them. -/
def Obligations.OutputIsAppendOnlyAndNeverReadBack : Prop :=
  (∀ (i : Instr) (s : State) (earlier : List Word),
    exec i (s.withOut (earlier ++ s.out)) = mapNext (fun t => t.withOut (earlier ++ t.out)) (exec i s)) ∧
  (∀ (i : Instr) (s t : State), exec i s = .next t →
    t.out = s.out ∨ i = .print ∧ ∃ rest v, s.occupied = rest ++ [v] ∧ t.out = s.out ++ [v])

/-- R107: DONE, a DIV by zero, an undefined byte, ABORT and a fault are the five events that end a launch, each with its own
status, and no other event ends it; running past the buffer is the fault FetchOutOfBounds. -/
def Obligations.FiveEventsEndALaunch : Prop :=
  ∀ s t : State, s.status = .running → step s = .next t →
    (t.status = .halted .success ↔ ∃ u, fetchInstr s = .go .done u) ∧
    (t.status = .halted .divisionByZero ↔ ∃ u rest, fetchInstr s = .go .div u ∧ u.occupied = rest ++ [0]) ∧
    (t.status = .halted .unknownOpcode ↔ ∃ u b, fetchInstr s = .go (.undefined b) u) ∧
    (t.status = .halted .endOfStream ↔ ∃ u, fetchInstr s = .go .abort u) ∧
    (t.status = .running ∨ (∃ o, t.status = .halted o) ∨ ∃ f, t.status = .faulted f) ∧
    (s.code.length ≤ s.ip → t.status = .faulted .fetchOutOfBounds)

/-- Which instruction raises which model fault, exactly (the spec's decisions D5 to D7 behind R206): StackOverflow the pushing
instructions on a full stack; StackUnderflow an instruction with too few slots, but for a DIV whose divisor is 0;
AddressOutOfRange an indirect access to a wide address under FaultIfWide; and no instruction's own actions raise
FetchOutOfBounds. -/
def Obligations.InstructionsFaultExactlyWhenTheirRulesSay : Prop :=
  ∀ (i : Instr) (s : State), s.status = .running →
    (FaultsWith .stackOverflow (exec i s) ↔ s.h.val = 256 ∧ pushesOntoFull i = true) ∧
    (FaultsWith .stackUnderflow (exec i s) ↔
      s.h.val < slotsNeeded i ∧ ¬(i = .div ∧ ∃ rest, s.occupied = rest ++ [0])) ∧
    (FaultsWith .addressOutOfRange (exec i s) ↔
      s.config.addressPolicy = .faultIfWide ∧ ∃ v, addressOperand i s = some v ∧ 65536 ≤ v.toNat) ∧
    ¬FaultsWith .fetchOutOfBounds (exec i s)

/-- R29: the contents of unoccupied slots are never observed. States that differ only there step alike, to states that differ
only there, and stop alike. -/
def Obligations.UnoccupiedSlotsAreNeverObserved : Prop :=
  ∀ s s' : State, SameButUnoccupied s s' →
    (∀ t, step s = .next t → ∃ t', step s' = .next t' ∧ SameButUnoccupied t t') ∧
    (∀ f, step s = .fault f → step s' = .fault f) ∧
    (∀ r, step s = .refused r → step s' = .refused r)

/-! ## Memory, addresses, output -/

/-- R53: MemWrite sets the whole cell it names, leaves every other cell and everything else alone. -/
def Obligations.MemWriteSetsOneWholeCell : Prop :=
  ∀ (s : State) (a : Addr) (v : Word),
    (s.store a v).load a = v ∧ SameMemoryBut a s (s.store a v) ∧ SameSlots s (s.store a v) ∧ (s.store a v).h = s.h ∧
      SameRegisters s (s.store a v)

/-- The memory effect of every instruction: exactly the store its rule gives it, or none (R53, R123, R125; the address of
STORE_INDIRECT is AddrOf's). -/
def Obligations.InstructionsStoreOnlyWhereTheirRulesSay : Prop :=
  ∀ (i : Instr) (s t : State), exec i s = .next t → ∀ a : Addr,
    t.load a = match storeOf i s with
      | some (b, v) => if a = b then v else s.load a
      | none => s.load a

/-- AddrOf under both policies (R54; the conversion is the spec's own decision D7). -/
def Obligations.PoppedAddressesFollowThePolicy : Prop :=
  ∀ (v : Word) (s : State),
    (s.config.addressPolicy = .truncate16 → ∃ a : Addr, a.toNat = v.toNat % 65536 ∧ addrOf v s = .go a s) ∧
    (s.config.addressPolicy = .faultIfWide → v.toNat < 65536 → ∃ a : Addr, a.toNat = v.toNat ∧ addrOf v s = .go a s) ∧
    (s.config.addressPolicy = .faultIfWide → 65536 ≤ v.toNat → addrOf v s = raise .addressOutOfRange s)

/-- The rendering of an output event (R68; the digit form and the line feed are the spec's own choice D11): decimal digits
whose value is v, no leading zero unless the line is the single digit 0, then one line feed. -/
def Obligations.RenderedLineIsTheDecimalNumber : Prop :=
  ∀ v : Word, ∃ digits : List Nat,
    renderLine v = digits.map (fun d => BitVec.ofNat 8 (0x30 + d)) ++ [0x0A] ∧
    (∀ d ∈ digits, d < 10) ∧ digits.foldl (fun n d => 10 * n + d) 0 = v.toNat ∧
    digits ≠ [] ∧ (digits.head? = some 0 → digits = [0])

/-! ## Push and memory instructions -/

/-- R120. -/
def Obligations.PushImmPushesItsImmediate : Prop :=
  IsF3 .pushImm .pushImm 3 ∧
  ∀ (imm : Imm) (s : State),
    (s.h.val < 256 → ∃ t v, exec (.pushImm imm) s = .next t ∧ t.occupied = s.occupied ++ [v] ∧ v.toNat = imm.toNat ∧
      SameRegisters s t ∧ SameMemory s t ∧ SameSlotsBut s.h.val s t) ∧
    (s.h.val = 256 → FaultsWith .stackOverflow (exec (.pushImm imm) s))

/-- R121. -/
def Obligations.LoadMemImmPushesTheCell : Prop :=
  IsF3 .loadMemImm .loadMemImm 3 ∧
  ∀ (a : Imm) (s : State),
    (s.h.val < 256 → ∃ t, exec (.loadMemImm a) s = .next t ∧ t.occupied = s.occupied ++ [s.load a] ∧
      SameRegisters s t ∧ SameMemory s t ∧ SameSlotsBut s.h.val s t) ∧
    (s.h.val = 256 → FaultsWith .stackOverflow (exec (.loadMemImm a) s))

/-- R122. -/
def Obligations.LoadAddMemImmAddsTheCellIntoTheTop : Prop :=
  IsF3 .loadAddMemImm .loadAddMemImm 3 ∧
  ∀ (a : Imm) (s : State),
    (∀ rest x, s.occupied = rest ++ [x] → ∃ t y, exec (.loadAddMemImm a) s = .next t ∧ t.occupied = rest ++ [y] ∧
      y.toNat = (x.toNat + (s.load a).toNat) % 2 ^ 64 ∧
      SameRegisters s t ∧ SameMemory s t ∧ SameSlotsBut (s.h.val - 1) s t) ∧
    (s.h.val = 0 → FaultsWith .stackUnderflow (exec (.loadAddMemImm a) s))

/-- R123. -/
def Obligations.StoreMemImmPopsIntoTheCell : Prop :=
  IsF3 .storeMemImm .storeMemImm 3 ∧
  ∀ (a : Imm) (s : State),
    (∀ rest v, s.occupied = rest ++ [v] → ∃ t, exec (.storeMemImm a) s = .next t ∧ t.occupied = rest ∧ t.load a = v ∧
      SameRegisters s t ∧ SameMemoryBut a s t ∧ SameSlots s t) ∧
    (s.h.val = 0 → FaultsWith .stackUnderflow (exec (.storeMemImm a) s))

/-- R124. The address is the one the meaning computes, AddrOf of the popped value. -/
def Obligations.LoadIndirectReplacesTheTopWithTheCell : Prop :=
  IsF1 .loadIndirect .loadIndirect ∧
  ∀ s : State,
    (∀ rest v, s.occupied = rest ++ [v] → s.config.addressPolicy = .truncate16 ∨ v.toNat < 65536 →
      ∃ t a, exec .loadIndirect s = .next t ∧ addressOf s.config.addressPolicy v = some a ∧ a.toNat = v.toNat % 65536 ∧
        t.occupied = rest ++ [s.load a] ∧ SameRegisters s t ∧ SameMemory s t ∧ SameSlotsBut (s.h.val - 1) s t) ∧
    (∀ rest v, s.occupied = rest ++ [v] → s.config.addressPolicy = .faultIfWide → 65536 ≤ v.toNat →
      FaultsWith .addressOutOfRange (exec .loadIndirect s)) ∧
    (s.h.val = 0 → FaultsWith .stackUnderflow (exec .loadIndirect s))

/-- R125. The top is the value, the slot below it the address; the address is the one the meaning computes. -/
def Obligations.StoreIndirectStoresAtThePoppedAddress : Prop :=
  IsF1 .storeIndirect .storeIndirect ∧
  ∀ s : State,
    (∀ rest v val, s.occupied = rest ++ [v, val] → s.config.addressPolicy = .truncate16 ∨ v.toNat < 65536 →
      ∃ t a, exec .storeIndirect s = .next t ∧ addressOf s.config.addressPolicy v = some a ∧ a.toNat = v.toNat % 65536 ∧
        t.occupied = rest ∧ t.load a = val ∧ SameRegisters s t ∧ SameMemoryBut a s t ∧ SameSlots s t) ∧
    (∀ rest v val, s.occupied = rest ++ [v, val] → s.config.addressPolicy = .faultIfWide → 65536 ≤ v.toNat →
      FaultsWith .addressOutOfRange (exec .storeIndirect s)) ∧
    (s.h.val < 2 → FaultsWith .stackUnderflow (exec .storeIndirect s))

/-! ## Stack manipulation -/

/-- R130. -/
def Obligations.DupPushesACopyOfTheTop : Prop :=
  IsF1 .dup .dup ∧
  ∀ s : State,
    (∀ rest x, s.occupied = rest ++ [x] → s.h.val < 256 → ∃ t, exec .dup s = .next t ∧ t.occupied = rest ++ [x, x] ∧
      SameRegisters s t ∧ SameMemory s t ∧ SameSlotsBut s.h.val s t) ∧
    (s.h.val = 0 → FaultsWith .stackUnderflow (exec .dup s)) ∧
    (s.h.val = 256 → FaultsWith .stackOverflow (exec .dup s))

/-- R131: the popped slot keeps its value and is unoccupied. -/
def Obligations.DiscardDropsTheTop : Prop :=
  IsF1 .discard .discard ∧
  ∀ s : State,
    (∀ rest x, s.occupied = rest ++ [x] → ∃ t, exec .discard s = .next t ∧ t.occupied = rest ∧
      SameRegisters s t ∧ SameMemory s t ∧ SameSlots s t) ∧
    (s.h.val = 0 → FaultsWith .stackUnderflow (exec .discard s))

/-! ## Arithmetic -/

/-- R141, R143, R145: ADD, SUB and MUL replace the two top values with the sum, the lower minus the top, and the product,
modulo 2^64. -/
def Obligations.AddSubMulWorkModuloTwoToTheSixtyFour : Prop :=
  IsF1 .add .add ∧ IsF1 .sub .sub ∧ IsF1 .mul .mul ∧
  ∀ s : State,
    (∀ rest l r, s.occupied = rest ++ [l, r] →
      (∃ t x, exec .add s = .next t ∧ t.occupied = rest ++ [x] ∧ x.toNat = (l.toNat + r.toNat) % 2 ^ 64 ∧
        SameRegisters s t ∧ SameMemory s t ∧ SameSlotsBut (s.h.val - 2) s t) ∧
      (∃ t x, exec .sub s = .next t ∧ t.occupied = rest ++ [x] ∧ (x.toNat : Int) = ((l.toNat : Int) - r.toNat) % 2 ^ 64 ∧
        SameRegisters s t ∧ SameMemory s t ∧ SameSlotsBut (s.h.val - 2) s t) ∧
      (∃ t x, exec .mul s = .next t ∧ t.occupied = rest ++ [x] ∧ x.toNat = (l.toNat * r.toNat) % 2 ^ 64 ∧
        SameRegisters s t ∧ SameMemory s t ∧ SameSlotsBut (s.h.val - 2) s t)) ∧
    (s.h.val < 2 → FaultsWith .stackUnderflow (exec .add s) ∧ FaultsWith .stackUnderflow (exec .sub s) ∧
      FaultsWith .stackUnderflow (exec .mul s))

/-- R142. -/
def Obligations.AddImmAddsIntoTheTop : Prop :=
  IsF3 .addImm .addImm 3 ∧
  ∀ (imm : Imm) (s : State),
    (∀ rest x, s.occupied = rest ++ [x] → ∃ t y, exec (.addImm imm) s = .next t ∧ t.occupied = rest ++ [y] ∧
      y.toNat = (x.toNat + imm.toNat) % 2 ^ 64 ∧ SameRegisters s t ∧ SameMemory s t ∧ SameSlotsBut (s.h.val - 1) s t) ∧
    (s.h.val = 0 → FaultsWith .stackUnderflow (exec (.addImm imm) s))

/-- R202: DIV halts with DivisionByZero exactly when the popped right-hand operand is 0, whatever the left-hand operand is and
even if there is none; the pop is kept and nothing else changes. -/
def Obligations.DivHaltsExactlyOnAZeroDivisor : Prop :=
  ∀ s : State, s.status = .running →
    (∀ rest r, s.occupied = rest ++ [r] →
      ((∃ t, exec .div s = .next t ∧ t.status = .halted .divisionByZero) ↔ r = 0)) ∧
    (∀ rest, s.occupied = rest ++ [0] → ∃ t, exec .div s = .next t ∧ t.status = .halted .divisionByZero ∧
      t.occupied = rest ∧ t.ip = s.ip ∧ t.res = s.res ∧ t.out = s.out ∧ t.code = s.code ∧ t.config = s.config ∧
      SameMemory s t ∧ SameSlots s t ∧ ∀ u, step t ≠ .next u)

/-- R144 with a nonzero divisor: the two top values are replaced with the floor quotient (the floor is the spec's general
knowledge, R8; log 17), or, without a dividend, StackUnderflow. -/
def Obligations.DivLeavesTheFloorQuotient : Prop :=
  IsF1 .div .div ∧
  ∀ s : State,
    (∀ rest l r, s.occupied = rest ++ [l, r] → r ≠ 0 → ∃ t q, exec .div s = .next t ∧ t.occupied = rest ++ [q] ∧
      q.toNat * r.toNat ≤ l.toNat ∧ l.toNat < (q.toNat + 1) * r.toNat ∧
      SameRegisters s t ∧ SameMemory s t ∧ SameSlotsBut (s.h.val - 2) s t) ∧
    (∀ r, s.occupied = [r] → r ≠ 0 → FaultsWith .stackUnderflow (exec .div s)) ∧
    (s.h.val = 0 → FaultsWith .stackUnderflow (exec .div s))

/-! ## Control transfer -/

/-- R150. IsF3 with advance 1 says of the fetch that it leaves `ip` just past the opcode byte: the target is peeked at, not
consumed. -/
def Obligations.JumpSetsIpToItsTarget : Prop :=
  IsF3 .jump .jump 1 ∧
  ∀ (target : Imm) (s : State), ∃ t, exec (.jump target) s = .next t ∧ t.ip = target.toNat ∧ t.h = s.h ∧ t.res = s.res ∧
    t.status = s.status ∧ t.out = s.out ∧ t.code = s.code ∧ t.config = s.config ∧ SameMemory s t ∧ SameSlots s t

/-- R151. -/
def Obligations.JumpIfTrueJumpsOnANonzeroCondition : Prop :=
  IsF3 .jumpIfTrue .jumpIfTrue 3 ∧
  ∀ (target : Imm) (s : State),
    (∀ rest c, s.occupied = rest ++ [c] → ∃ t, exec (.jumpIfTrue target) s = .next t ∧ t.occupied = rest ∧
      (c ≠ 0 → t.ip = target.toNat) ∧ (c = 0 → t.ip = s.ip) ∧ t.res = s.res ∧ t.status = s.status ∧ t.out = s.out ∧
      t.code = s.code ∧ t.config = s.config ∧ SameMemory s t ∧ SameSlots s t) ∧
    (s.h.val = 0 → FaultsWith .stackUnderflow (exec (.jumpIfTrue target) s))

/-- R152. -/
def Obligations.JumpIfFalseJumpsOnAZeroCondition : Prop :=
  IsF3 .jumpIfFalse .jumpIfFalse 3 ∧
  ∀ (target : Imm) (s : State),
    (∀ rest c, s.occupied = rest ++ [c] → ∃ t, exec (.jumpIfFalse target) s = .next t ∧ t.occupied = rest ∧
      (c = 0 → t.ip = target.toNat) ∧ (c ≠ 0 → t.ip = s.ip) ∧ t.res = s.res ∧ t.status = s.status ∧ t.out = s.out ∧
      t.code = s.code ∧ t.config = s.config ∧ SameMemory s t ∧ SameSlots s t) ∧
    (s.h.val = 0 → FaultsWith .stackUnderflow (exec (.jumpIfFalse target) s))

/-- A running machine at a JUMP to its own offset stays where it is for every number of steps: a hang, not an outcome (R106,
R150). -/
def Obligations.JumpToItselfNeverEnds : Prop :=
  ∀ (s : State) (target : Imm) (rest : List Byte) (n : Nat), s.status = .running → s.ip = target.toNat →
    decode s.config (s.code.drop s.ip) = .ok (.jump target, rest) → StepsTo n s s

/-! ## Comparison -/

/-- R161 to R165: the five stack-stack comparisons leave 1 where the unsigned relation between the lower value and the top
holds, and 0 where it does not. -/
def Obligations.StackComparisonsLeaveZeroOrOne : Prop :=
  IsF1 .equal .equal ∧ IsF1 .less .less ∧ IsF1 .lessOrEqual .lessOrEqual ∧ IsF1 .greater .greater ∧
  IsF1 .greaterOrEqual .greaterOrEqual ∧
  ∀ (i : Instr) (holds : Nat → Nat → Prop),
    (i = .equal ∧ holds = (fun l r => l = r)) ∨ (i = .less ∧ holds = (fun l r => l < r)) ∨
    (i = .lessOrEqual ∧ holds = (fun l r => l ≤ r)) ∨ (i = .greater ∧ holds = (fun l r => l > r)) ∨
    (i = .greaterOrEqual ∧ holds = (fun l r => l ≥ r)) →
    ∀ s : State,
      (∀ rest l r, s.occupied = rest ++ [l, r] → ∃ t x, exec i s = .next t ∧ t.occupied = rest ++ [x] ∧
        (holds l.toNat r.toNat → x = 1) ∧ (¬holds l.toNat r.toNat → x = 0) ∧
        SameRegisters s t ∧ SameMemory s t ∧ SameSlotsBut (s.h.val - 2) s t) ∧
      (s.h.val < 2 → FaultsWith .stackUnderflow (exec i s))

/-- R166: the height does not change. -/
def Obligations.GreaterOrEqualImmReplacesTheTop : Prop :=
  IsF3 .greaterOrEqualImm .greaterOrEqualImm 3 ∧
  ∀ (imm : Imm) (s : State),
    (∀ rest x, s.occupied = rest ++ [x] → ∃ t y, exec (.greaterOrEqualImm imm) s = .next t ∧ t.occupied = rest ++ [y] ∧
      (x.toNat ≥ imm.toNat → y = 1) ∧ (x.toNat < imm.toNat → y = 0) ∧
      SameRegisters s t ∧ SameMemory s t ∧ SameSlotsBut (s.h.val - 1) s t) ∧
    (s.h.val = 0 → FaultsWith .stackUnderflow (exec (.greaterOrEqualImm imm) s))

/-! ## Result, output, termination -/

/-- R170: the last clause says that no other instruction writes `res`. -/
def Obligations.PopResultPopsIntoTheResultRegister : Prop :=
  IsF1 .popResult .popResult ∧
  ∀ s : State,
    (∀ rest v, s.occupied = rest ++ [v] → ∃ t, exec .popResult s = .next t ∧ t.occupied = rest ∧ t.res = v ∧
      t.ip = s.ip ∧ t.status = s.status ∧ t.out = s.out ∧ t.code = s.code ∧ t.config = s.config ∧
      SameMemory s t ∧ SameSlots s t) ∧
    (s.h.val = 0 → FaultsWith .stackUnderflow (exec .popResult s)) ∧
    (∀ i t, i ≠ .popResult → exec i s = .next t → t.res = s.res)

/-- R172. -/
def Obligations.PrintPopsAndEmits : Prop :=
  IsF1 .print .print ∧
  ∀ s : State,
    (∀ rest v, s.occupied = rest ++ [v] → ∃ t, exec .print s = .next t ∧ t.occupied = rest ∧ t.out = s.out ++ [v] ∧
      t.outputText = s.outputText ++ renderLine v ∧
      t.ip = s.ip ∧ t.res = s.res ∧ t.status = s.status ∧ t.code = s.code ∧ t.config = s.config ∧
      SameMemory s t ∧ SameSlots s t) ∧
    (s.h.val = 0 → ∃ t, exec .print s = .next t ∧ t.status = .faulted .stackUnderflow ∧ t.out = s.out)

/-- R171, R173, R174 (and R203): DONE, ABORT and every undefined byte end the launch with Success, EndOfStream and
UnknownOpcode, and no other instruction does; nothing but the status changes, and a step at an undefined byte has read that
byte only. -/
def Obligations.DoneAbortAndUndefinedBytesEndTheLaunch : Prop :=
  IsF1 .done .done ∧ IsF1 .abort .abort ∧
  (∀ s : State,
    exec .done s = .next { s with status := .halted .success } ∧
    exec .abort s = .next { s with status := .halted .endOfStream } ∧
    ∀ b, exec (.undefined b) s = .next { s with status := .halted .unknownOpcode }) ∧
  (∀ (i : Instr) (s t : State), s.status = .running → exec i s = .next t →
    (t.status = .halted .success → i = .done) ∧ (t.status = .halted .endOfStream → i = .abort) ∧
    (t.status = .halted .unknownOpcode → ∃ b, i = .undefined b)) ∧
  (∀ (s : State) (b : Byte), s.status = .running → s.code[s.ip]? = some b → (∀ m, s.config.opcodeValue m ≠ b) →
    s.config.wellFormed = true → step s = .next { s with ip := s.ip + 1, status := .halted .unknownOpcode })
end

