-- ==== Sys2Proof/Laws/State.lean ====
section
/-! SUPPORT. What each field of State is after each update, and how the views of State (a slot, a cell, the occupied stack)
depend on it. -/

namespace Sys2Proof.Machine.State

variable (s : State)

@[simp] theorem withIp_ip (x : Nat) : (s.withIp x).ip = x := rfl
@[simp] theorem withIp_h (x : Nat) : (s.withIp x).h = s.h := rfl
@[simp] theorem withIp_slots (x : Nat) : (s.withIp x).slots = s.slots := rfl
@[simp] theorem withIp_mem (x : Nat) : (s.withIp x).mem = s.mem := rfl
@[simp] theorem withIp_res (x : Nat) : (s.withIp x).res = s.res := rfl
@[simp] theorem withIp_status (x : Nat) : (s.withIp x).status = s.status := rfl
@[simp] theorem withIp_out (x : Nat) : (s.withIp x).out = s.out := rfl
@[simp] theorem withIp_code (x : Nat) : (s.withIp x).code = s.code := rfl
@[simp] theorem withIp_config (x : Nat) : (s.withIp x).config = s.config := rfl
@[simp] theorem withIp_slot (x : Nat) (k : Nat) : (s.withIp x).slot k = s.slot k := rfl
@[simp] theorem withIp_occupied (x : Nat) : (s.withIp x).occupied = s.occupied := rfl
@[simp] theorem withIp_load (x : Nat) (k : Addr) : (s.withIp x).load k = s.load k := rfl

@[simp] theorem withStack_ip (x : Fin 257) (y : Slots) : (s.withStack x y).ip = s.ip := rfl
@[simp] theorem withStack_h (x : Fin 257) (y : Slots) : (s.withStack x y).h = x := rfl
@[simp] theorem withStack_slots (x : Fin 257) (y : Slots) : (s.withStack x y).slots = y := rfl
@[simp] theorem withStack_mem (x : Fin 257) (y : Slots) : (s.withStack x y).mem = s.mem := rfl
@[simp] theorem withStack_res (x : Fin 257) (y : Slots) : (s.withStack x y).res = s.res := rfl
@[simp] theorem withStack_status (x : Fin 257) (y : Slots) : (s.withStack x y).status = s.status := rfl
@[simp] theorem withStack_out (x : Fin 257) (y : Slots) : (s.withStack x y).out = s.out := rfl
@[simp] theorem withStack_code (x : Fin 257) (y : Slots) : (s.withStack x y).code = s.code := rfl
@[simp] theorem withStack_config (x : Fin 257) (y : Slots) : (s.withStack x y).config = s.config := rfl
@[simp] theorem withStack_load (x : Fin 257) (y : Slots) (k : Addr) : (s.withStack x y).load k = s.load k := rfl

@[simp] theorem withMem_ip (x : Memory) : (s.withMem x).ip = s.ip := rfl
@[simp] theorem withMem_h (x : Memory) : (s.withMem x).h = s.h := rfl
@[simp] theorem withMem_slots (x : Memory) : (s.withMem x).slots = s.slots := rfl
@[simp] theorem withMem_mem (x : Memory) : (s.withMem x).mem = x := rfl
@[simp] theorem withMem_res (x : Memory) : (s.withMem x).res = s.res := rfl
@[simp] theorem withMem_status (x : Memory) : (s.withMem x).status = s.status := rfl
@[simp] theorem withMem_out (x : Memory) : (s.withMem x).out = s.out := rfl
@[simp] theorem withMem_code (x : Memory) : (s.withMem x).code = s.code := rfl
@[simp] theorem withMem_config (x : Memory) : (s.withMem x).config = s.config := rfl
@[simp] theorem withMem_slot (x : Memory) (k : Nat) : (s.withMem x).slot k = s.slot k := rfl
@[simp] theorem withMem_occupied (x : Memory) : (s.withMem x).occupied = s.occupied := rfl

@[simp] theorem withRes_ip (x : Word) : (s.withRes x).ip = s.ip := rfl
@[simp] theorem withRes_h (x : Word) : (s.withRes x).h = s.h := rfl
@[simp] theorem withRes_slots (x : Word) : (s.withRes x).slots = s.slots := rfl
@[simp] theorem withRes_mem (x : Word) : (s.withRes x).mem = s.mem := rfl
@[simp] theorem withRes_res (x : Word) : (s.withRes x).res = x := rfl
@[simp] theorem withRes_status (x : Word) : (s.withRes x).status = s.status := rfl
@[simp] theorem withRes_out (x : Word) : (s.withRes x).out = s.out := rfl
@[simp] theorem withRes_code (x : Word) : (s.withRes x).code = s.code := rfl
@[simp] theorem withRes_config (x : Word) : (s.withRes x).config = s.config := rfl
@[simp] theorem withRes_slot (x : Word) (k : Nat) : (s.withRes x).slot k = s.slot k := rfl
@[simp] theorem withRes_occupied (x : Word) : (s.withRes x).occupied = s.occupied := rfl
@[simp] theorem withRes_load (x : Word) (k : Addr) : (s.withRes x).load k = s.load k := rfl

@[simp] theorem withStatus_ip (x : Status) : (s.withStatus x).ip = s.ip := rfl
@[simp] theorem withStatus_h (x : Status) : (s.withStatus x).h = s.h := rfl
@[simp] theorem withStatus_slots (x : Status) : (s.withStatus x).slots = s.slots := rfl
@[simp] theorem withStatus_mem (x : Status) : (s.withStatus x).mem = s.mem := rfl
@[simp] theorem withStatus_res (x : Status) : (s.withStatus x).res = s.res := rfl
@[simp] theorem withStatus_status (x : Status) : (s.withStatus x).status = x := rfl
@[simp] theorem withStatus_out (x : Status) : (s.withStatus x).out = s.out := rfl
@[simp] theorem withStatus_code (x : Status) : (s.withStatus x).code = s.code := rfl
@[simp] theorem withStatus_config (x : Status) : (s.withStatus x).config = s.config := rfl
@[simp] theorem withStatus_slot (x : Status) (k : Nat) : (s.withStatus x).slot k = s.slot k := rfl
@[simp] theorem withStatus_occupied (x : Status) : (s.withStatus x).occupied = s.occupied := rfl
@[simp] theorem withStatus_load (x : Status) (k : Addr) : (s.withStatus x).load k = s.load k := rfl

@[simp] theorem withOut_ip (x : List Word) : (s.withOut x).ip = s.ip := rfl
@[simp] theorem withOut_h (x : List Word) : (s.withOut x).h = s.h := rfl
@[simp] theorem withOut_slots (x : List Word) : (s.withOut x).slots = s.slots := rfl
@[simp] theorem withOut_mem (x : List Word) : (s.withOut x).mem = s.mem := rfl
@[simp] theorem withOut_res (x : List Word) : (s.withOut x).res = s.res := rfl
@[simp] theorem withOut_status (x : List Word) : (s.withOut x).status = s.status := rfl
@[simp] theorem withOut_out (x : List Word) : (s.withOut x).out = x := rfl
@[simp] theorem withOut_code (x : List Word) : (s.withOut x).code = s.code := rfl
@[simp] theorem withOut_config (x : List Word) : (s.withOut x).config = s.config := rfl
@[simp] theorem withOut_slot (x : List Word) (k : Nat) : (s.withOut x).slot k = s.slot k := rfl
@[simp] theorem withOut_occupied (x : List Word) : (s.withOut x).occupied = s.occupied := rfl
@[simp] theorem withOut_load (x : List Word) (k : Addr) : (s.withOut x).load k = s.load k := rfl

@[simp] theorem withCode_ip (x : List Byte) : (s.withCode x).ip = s.ip := rfl
@[simp] theorem withCode_h (x : List Byte) : (s.withCode x).h = s.h := rfl
@[simp] theorem withCode_slots (x : List Byte) : (s.withCode x).slots = s.slots := rfl
@[simp] theorem withCode_mem (x : List Byte) : (s.withCode x).mem = s.mem := rfl
@[simp] theorem withCode_res (x : List Byte) : (s.withCode x).res = s.res := rfl
@[simp] theorem withCode_status (x : List Byte) : (s.withCode x).status = s.status := rfl
@[simp] theorem withCode_out (x : List Byte) : (s.withCode x).out = s.out := rfl
@[simp] theorem withCode_code (x : List Byte) : (s.withCode x).code = x := rfl
@[simp] theorem withCode_config (x : List Byte) : (s.withCode x).config = s.config := rfl
@[simp] theorem withCode_slot (x : List Byte) (k : Nat) : (s.withCode x).slot k = s.slot k := rfl
@[simp] theorem withCode_occupied (x : List Byte) : (s.withCode x).occupied = s.occupied := rfl
@[simp] theorem withCode_load (x : List Byte) (k : Addr) : (s.withCode x).load k = s.load k := rfl

@[simp] theorem withConfig_ip (x : Config) : (s.withConfig x).ip = s.ip := rfl
@[simp] theorem withConfig_h (x : Config) : (s.withConfig x).h = s.h := rfl
@[simp] theorem withConfig_slots (x : Config) : (s.withConfig x).slots = s.slots := rfl
@[simp] theorem withConfig_mem (x : Config) : (s.withConfig x).mem = s.mem := rfl
@[simp] theorem withConfig_res (x : Config) : (s.withConfig x).res = s.res := rfl
@[simp] theorem withConfig_status (x : Config) : (s.withConfig x).status = s.status := rfl
@[simp] theorem withConfig_out (x : Config) : (s.withConfig x).out = s.out := rfl
@[simp] theorem withConfig_code (x : Config) : (s.withConfig x).code = s.code := rfl
@[simp] theorem withConfig_config (x : Config) : (s.withConfig x).config = x := rfl
@[simp] theorem withConfig_slot (x : Config) (k : Nat) : (s.withConfig x).slot k = s.slot k := rfl
@[simp] theorem withConfig_occupied (x : Config) : (s.withConfig x).occupied = s.occupied := rfl
@[simp] theorem withConfig_load (x : Config) (k : Addr) : (s.withConfig x).load k = s.load k := rfl

end Sys2Proof.Machine.State
end

