-- ==== Sys2Proof/Laws/Cells.lean ====
section
/-! SUPPORT. Cell arrays: a read after a write (20_memory.md R52, R53), for every list, and the canonical form, which every
write keeps. -/

namespace Sys2Proof.Machine

theorem Cells.read_erase (c : List Cell) (a k : Nat) :
    Cells.read (Cells.erase c a) k = if k = a then 0 else Cells.read c k := by
  induction c with
  | nil => simp [Cells.erase, Cells.read]
  | cons p rest ih =>
    obtain ⟨b, w⟩ := p
    by_cases hb : b = a
    · subst hb
      have : Cells.erase ((b, w) :: rest) b = Cells.erase rest b := by simp [Cells.erase]
      rw [this, ih]
      by_cases hk : k = b
      · simp [hk]
      · simp [Cells.read, hk, Ne.symm hk]
    · have : Cells.erase ((b, w) :: rest) a = (b, w) :: Cells.erase rest a := by simp [Cells.erase, hb]
      rw [this, Cells.read, ih, Cells.read]
      by_cases hk : b = k
      · subst hk; simp [hb]
      · simp [hk]

theorem Cells.read_insert (c : List Cell) (a k : Nat) (v : Word) (hnot : ∀ p ∈ c, p.1 ≠ a) : Cells.read (Cells.insert c a v) k = if k = a then v else Cells.read c k := by
  induction c with
  | nil => simp [Cells.insert, Cells.read, eq_comm]
  | cons p rest ih =>
    obtain ⟨b, w⟩ := p
    have hb : b ≠ a := hnot (b, w) (by simp)
    have ih := ih fun p hp => hnot p (by simp [hp])
    unfold Cells.insert
    split
    · by_cases hk : k = a
      · simp [Cells.read, hk]
      · simp [Cells.read, hk, Ne.symm hk]
    · rw [Cells.read, ih, Cells.read]
      by_cases hk : b = k
      · subst hk; simp [hb]
      · simp [hk]

theorem Cells.not_mem_erase (c : List Cell) (a : Nat) : ∀ p ∈ Cells.erase c a, p.1 ≠ a := by
  simp [Cells.erase]

/-- A read after a write: the value at the index written, the old value at every other. -/
theorem Cells.read_write (c : List Cell) (a k : Nat) (v : Word) :
    Cells.read (Cells.write c a v) k = if k = a then v else Cells.read c k := by
  unfold Cells.write
  split
  · next hv => rw [Cells.read_erase, hv]
  · rw [Cells.read_insert _ _ _ _ (Cells.not_mem_erase c a), Cells.read_erase]
    by_cases hk : k = a <;> simp [hk]

theorem Cells.wfFrom_mono {size low low' : Nat} {c : List Cell} (hle : low ≤ low')
    (h : Cells.wfFrom size low' c = true) : Cells.wfFrom size low c = true := by
  cases c with
  | nil => rfl
  | cons p rest =>
    simp only [Cells.wfFrom, Bool.and_eq_true, decide_eq_true_eq] at h ⊢
    exact ⟨⟨⟨by omega, h.1.1.2⟩, h.1.2⟩, h.2⟩

theorem Cells.wfFrom_erase {size low : Nat} {c : List Cell} (a : Nat) (h : Cells.wfFrom size low c = true) :
    Cells.wfFrom size low (Cells.erase c a) = true := by
  induction c generalizing low with
  | nil => rfl
  | cons p rest ih =>
    obtain ⟨b, w⟩ := p
    simp only [Cells.wfFrom, Bool.and_eq_true, decide_eq_true_eq] at h
    by_cases hb : b = a
    · have he : Cells.erase ((b, w) :: rest) a = Cells.erase rest a := by simp [Cells.erase, hb]
      rw [he]
      exact Cells.wfFrom_mono (by omega) (ih h.2)
    · have he : Cells.erase ((b, w) :: rest) a = (b, w) :: Cells.erase rest a := by simp [Cells.erase, hb]
      rw [he]
      simp only [Cells.wfFrom, Bool.and_eq_true, decide_eq_true_eq]
      exact ⟨h.1, ih h.2⟩

theorem Cells.wfFrom_insert {size low : Nat} {c : List Cell} {a : Nat} {v : Word} (hlow : low ≤ a) (ha : a < size)
    (hv : v ≠ 0) (hnot : ∀ p ∈ c, p.1 ≠ a) (h : Cells.wfFrom size low c = true) :
    Cells.wfFrom size low (Cells.insert c a v) = true := by
  induction c generalizing low with
  | nil =>
    simp only [Cells.insert, Cells.wfFrom, Bool.and_eq_true, decide_eq_true_eq]
    exact ⟨⟨⟨hlow, ha⟩, hv⟩, trivial⟩
  | cons p rest ih =>
    obtain ⟨b, w⟩ := p
    have hb : b ≠ a := hnot (b, w) (by simp)
    simp only [Cells.wfFrom, Bool.and_eq_true, decide_eq_true_eq] at h
    unfold Cells.insert
    split
    · simp only [Cells.wfFrom, Bool.and_eq_true, decide_eq_true_eq]
      exact ⟨⟨⟨hlow, ha⟩, hv⟩, ⟨⟨by omega, h.1.1.2⟩, h.1.2⟩, h.2⟩
    · simp only [Cells.wfFrom, Bool.and_eq_true, decide_eq_true_eq]
      exact ⟨h.1, ih (by omega) (fun p hp => hnot p (by simp [hp])) h.2⟩

/-- A write at an index of the array keeps the canonical form. -/
theorem Cells.wfFrom_write {size : Nat} {c : List Cell} {a : Nat} (v : Word) (ha : a < size)
    (h : Cells.wfFrom size 0 c = true) : Cells.wfFrom size 0 (Cells.write c a v) = true := by
  unfold Cells.write
  split
  · exact Cells.wfFrom_erase a h
  · next hv => exact Cells.wfFrom_insert (by omega) ha hv (Cells.not_mem_erase c a) (Cells.wfFrom_erase a h)

/-- Every store keeps the memory's canonical form. -/
theorem State.store_wf {s : State} (a : Addr) (v : Word) (h : Memory.wf s.mem = true) :
    Memory.wf (s.store a v).mem = true := Cells.wfFrom_write v a.isLt h

theorem State.reset_mem_wf : Memory.wf State.reset.mem = true := rfl

/-- MemRead after MemWrite (R52, R53). -/
theorem State.load_store (s : State) (a b : Addr) (v : Word) :
    (s.store a v).load b = if b = a then v else s.load b := by
  simp only [State.load, State.store, State.withMem_mem, Cells.read_write, BitVec.toNat_inj]

@[simp] theorem State.slot_withStack (s : State) (h : Fin 257) (c : Slots) (k : Nat) :
    (s.withStack h c).slot k = Cells.read c k := rfl

end Sys2Proof.Machine
end

