-- ==== Sys2Proof/Laws/Decode.lean ====
section
/-! SUPPORT. Small facts about the formats, the mnemonics and the two dispatch forms. -/

namespace Sys2Proof

theorem Mnemonic.mem_all (m : Mnemonic) : m ∈ Mnemonic.all := by cases m <;> decide

theorem Mnemonic.nodup_all : Mnemonic.all.Nodup := by decide

/-- A well-formed configuration gives two mnemonics two values (R79). -/
theorem Config.opcodeValue_injective {c : Config} (h : c.wellFormed = true) {m n : Mnemonic}
    (heq : c.opcodeValue m = c.opcodeValue n) : m = n :=
  List.inj_on_of_nodup_map (of_decide_eq_true h) m.mem_all n.mem_all heq

theorem Config.isUndefinedByte_iff {c : Config} {b : Byte} :
    c.isUndefinedByte b = true ↔ ∀ m, c.opcodeValue m ≠ b := by
  simp only [Config.isUndefinedByte, List.all_eq_true, decide_eq_true_eq]
  exact ⟨fun h m => h m m.mem_all, fun h m _ => h m⟩

theorem joinImm_toNat (hi lo : Byte) : (joinImm hi lo).toNat = hi.toNat * 256 + lo.toNat := by
  unfold joinImm
  rw [BitVec.toNat_append, ← Nat.shiftLeft_add_eq_or_of_lt lo.isLt, Nat.shiftLeft_eq]

theorem immHigh_toNat (imm : Imm) : (immHigh imm).toNat = imm.toNat / 256 := by
  have := imm.isLt
  simp only [immHigh, BitVec.extractLsb'_toNat, Nat.shiftRight_eq_div_pow]
  omega

theorem immLow_toNat (imm : Imm) : (immLow imm).toNat = imm.toNat % 256 := by
  simp [immLow]

/-- The immediate's bytes and back (R57, R74). -/
@[simp] theorem joinImm_halves (imm : Imm) : joinImm (immHigh imm) (immLow imm) = imm := by
  apply BitVec.eq_of_toNat_eq
  rw [joinImm_toNat, immHigh_toNat, immLow_toNat]
  omega

@[simp] theorem immHigh_joinImm (hi lo : Byte) : immHigh (joinImm hi lo) = hi := by
  have := lo.isLt
  apply BitVec.eq_of_toNat_eq
  rw [immHigh_toNat, joinImm_toNat]
  omega

@[simp] theorem immLow_joinImm (hi lo : Byte) : immLow (joinImm hi lo) = lo := by
  have := lo.isLt
  apply BitVec.eq_of_toNat_eq
  rw [immLow_toNat, joinImm_toNat]
  omega

/-- Direct dispatch finds a mnemonic only at its own value. -/
theorem decodeDirect_value {c : Config} {b : Byte} {m : Mnemonic} (h : decodeDirect c b = some m) :
    c.opcodeValue m = b := by simpa using List.find?_some h

theorem decodeDirect_none {c : Config} {b : Byte} : decodeDirect c b = none ↔ c.isUndefinedByte b = true := by
  simp [decodeDirect, Config.isUndefinedByte]

/-- Direct dispatch of a mnemonic's own value gives it back (R94). -/
theorem decodeDirect_opcodeValue {c : Config} (h : c.wellFormed = true) (m : Mnemonic) :
    decodeDirect c (c.opcodeValue m) = some m := by
  cases hd : decodeDirect c (c.opcodeValue m) with
  | none => exact absurd rfl (Config.isUndefinedByte_iff.mp (decodeDirect_none.mp hd) m)
  | some n => rw [Config.opcodeValue_injective h (decodeDirect_value hd)]

/-! ## The dispatch table -/

/-- What a table holds after entries were set at distinct places: at the place of one of them that one, elsewhere what it
held before. -/
theorem foldl_set_getElem? {M : Type} [DecidableEq M] (place : M → Nat) (ms : List M) (t : List (Option M)) (k : Nat)
    (hk : k < t.length) (hnd : (ms.map place).Nodup) :
    (ms.foldl (fun t m => t.set (place m) (some m)) t)[k]? =
      match ms.find? fun m => decide (place m = k) with
      | some m => some (some m)
      | none => t[k]? := by
  induction ms generalizing t with
  | nil => rfl
  | cons m rest ih =>
    rw [List.map_cons, List.nodup_cons] at hnd
    rw [List.foldl_cons, ih (t.set (place m) (some m)) (by simpa using hk) hnd.2, List.find?_cons]
    by_cases hm : place m = k
    · have : rest.find? (fun n => decide (place n = k)) = none := by
        rw [List.find?_eq_none]
        intro n hn heq
        exact hnd.1 (List.mem_map.mpr ⟨n, hn, by rw [hm]; exact of_decide_eq_true heq⟩)
      simp [this, hm, hk]
    · simp [hm]

theorem dispatchTable_length (c : Config) : (dispatchTable c).length = 256 := by
  have : ∀ (ms : List Mnemonic) (t : List (Option Mnemonic)),
      (ms.foldl (fun t m => t.set (c.opcodeValue m).toNat (some m)) t).length = t.length := by
    intro ms
    induction ms with
    | nil => intro t; rfl
    | cons m rest ih => intro t; rw [List.foldl_cons, ih, List.length_set]
  rw [dispatchTable, this, List.length_replicate]

/-- Entry b of the table is the handler direct dispatch selects, or the fallback (R96). -/
theorem dispatchTable_getElem? {c : Config} (h : c.wellFormed = true) (b : Byte) :
    (dispatchTable c)[b.toNat]? = some (decodeDirect c b) := by
  have hnd : (Mnemonic.all.map fun m => (c.opcodeValue m).toNat).Nodup := by
    have hval : (Mnemonic.all.map c.opcodeValue).Nodup := of_decide_eq_true h
    have := hval.map (f := BitVec.toNat) fun _ _ => BitVec.eq_of_toNat_eq
    simpa [List.map_map, Function.comp_def] using this
  rw [dispatchTable, foldl_set_getElem? (fun m => (c.opcodeValue m).toNat) _ _ _
    (by rw [List.length_replicate]; exact b.isLt) hnd]
  simp only [decodeDirect, ← BitVec.toNat_inj]
  cases Mnemonic.all.find? fun m => decide ((c.opcodeValue m).toNat = b.toNat) with
  | none =>
    have hlt : b.toNat < 256 := b.isLt
    simp only [List.getElem?_replicate, if_pos hlt]
  | some m => rfl

/-- The two dispatch forms are one function of the opcode byte (R97). -/
theorem decodeIndirect_eq_decodeDirect {c : Config} (h : c.wellFormed = true) (b : Byte) :
    decodeIndirect c b = decodeDirect c b := by
  rw [decodeIndirect, dispatchTable_getElem? h]
  rfl

theorem decodeOpcode_eq_decodeDirect {c : Config} (h : c.wellFormed = true) (b : Byte) :
    decodeOpcode c b = decodeDirect c b := by
  unfold decodeOpcode
  cases c.dispatchMode with
  | direct => rfl
  | indirect => exact decodeIndirect_eq_decodeDirect h b

end Sys2Proof
end

