-- ==== Sys2Proof/Laws/Stack.lean ====
section
/-! SUPPORT. The four stack primitives (10_state.md R24 to R27), each in terms of the occupied stack, bottom first. -/

namespace Sys2Proof.Machine

@[simp] theorem occupied_length (s : State) : s.occupied.length = s.h.val := by simp [State.occupied]

/-- A nonempty occupied stack is its lower part and the top slot. -/
theorem occupied_split {s : State} (hne : s.h.val ≠ 0) :
    s.occupied = (List.range (s.h.val - 1)).map s.slot ++ [s.slot (s.h.val - 1)] := by
  obtain ⟨n, hn⟩ : ∃ n, s.h.val = n + 1 := ⟨s.h.val - 1, by omega⟩
  simp [State.occupied, hn, List.range_succ]

/-- What it says of a state that its occupied stack ends in v. -/
theorem occupied_append {s : State} {rest : List Word} {v : Word} (h : s.occupied = rest ++ [v]) :
    s.h.val = rest.length + 1 ∧ s.slot (s.h.val - 1) = v ∧ (List.range (s.h.val - 1)).map s.slot = rest := by
  have hl : s.h.val = rest.length + 1 := by simpa using congrArg List.length h
  rw [occupied_split (by omega)] at h
  obtain ⟨h1, h2⟩ := List.append_inj' h rfl
  exact ⟨hl, by simpa using h2, h1⟩

theorem push_full {s : State} {v : Word} (h : s.h.val = 256) : push v s = raise .stackOverflow s := by
  simp [push, h]

/-- push onto a stack with room. -/
theorem push_room {s : State} (v : Word) (h : s.h.val < 256) :
    push v s = .go () (s.withStack ⟨s.h.val + 1, by omega⟩ (Cells.write s.slots s.h.val v)) := by
  simp [push, Nat.ne_of_lt h]

theorem occupied_push (s : State) (v : Word) (h : s.h.val + 1 < 257) :
    (s.withStack ⟨s.h.val + 1, h⟩ (Cells.write s.slots s.h.val v)).occupied = s.occupied ++ [v] := by
  rw [occupied_split (by simp)]
  congr 1
  · refine List.map_congr_left fun k hk => ?_
    have hk : k < s.h.val := by simpa using hk
    rw [State.slot_withStack, Cells.read_write, if_neg (by omega)]
    rfl
  · simp [Cells.read_write]

theorem pop_of_zero {s : State} (h : s.h.val = 0) : pop s = raise .stackUnderflow s := by simp [pop, h]

theorem pop_of_ne_zero {s : State} (h : s.h.val ≠ 0) :
    pop s = .go (s.slot (s.h.val - 1)) (s.withStack ⟨s.h.val - 1, by omega⟩ s.slots) := by simp [pop, h]

theorem occupied_pop (s : State) (h : s.h.val - 1 < 257) :
    (s.withStack ⟨s.h.val - 1, h⟩ s.slots).occupied = (List.range (s.h.val - 1)).map s.slot := rfl

/-- pop on an occupied stack that ends in v. -/
theorem pop_occupied {s : State} {rest : List Word} {v : Word} (h : s.occupied = rest ++ [v]) :
    pop s = .go v (s.withStack ⟨s.h.val - 1, by omega⟩ s.slots) ∧
      (s.withStack ⟨s.h.val - 1, by omega⟩ s.slots).occupied = rest := by
  obtain ⟨hl, hv, hr⟩ := occupied_append h
  exact ⟨by rw [pop_of_ne_zero (by omega), hv], by rw [occupied_pop, hr]⟩

theorem top_of_zero {s : State} (h : s.h.val = 0) : top s = raise .stackUnderflow s := by simp [top, h]

theorem top_of_ne_zero {s : State} (h : s.h.val ≠ 0) : top s = .go (s.slot (s.h.val - 1)) s := by simp [top, h]

theorem top_occupied {s : State} {rest : List Word} {v : Word} (h : s.occupied = rest ++ [v]) : top s = .go v s := by
  obtain ⟨hl, hv, _⟩ := occupied_append h
  rw [top_of_ne_zero (by omega), hv]

theorem settop_of_zero {s : State} {v : Word} (h : s.h.val = 0) : settop v s = raise .stackUnderflow s := by
  simp [settop, h]

theorem settop_of_ne_zero {s : State} (v : Word) (h : s.h.val ≠ 0) :
    settop v s = .go () (s.withStack s.h (Cells.write s.slots (s.h.val - 1) v)) := by simp [settop, h]

/-- settop on an occupied stack that ends in v. -/
theorem settop_occupied {s : State} {rest : List Word} {v : Word} (w : Word) (h : s.occupied = rest ++ [v]) :
    settop w s = .go () (s.withStack s.h (Cells.write s.slots (s.h.val - 1) w)) ∧
      (s.withStack s.h (Cells.write s.slots (s.h.val - 1) w)).occupied = rest ++ [w] := by
  obtain ⟨hl, _, hr⟩ := occupied_append h
  refine ⟨settop_of_ne_zero w (by omega), ?_⟩
  rw [occupied_split (by simp; omega)]
  congr 1
  · rw [← hr]
    refine List.map_congr_left fun k hk => ?_
    have := List.mem_range.mp hk
    simp only [State.withStack_h] at this
    rw [State.slot_withStack, Cells.read_write, if_neg (by omega)]
    rfl
  · simp [Cells.read_write]

end Sys2Proof.Machine
end

