-- ==== Sys2Proof/Laws/Operands.lean ====
section
/-! SUPPORT. Sequencing, and what each shared operation of Machine/Operands.lean does: on the stacks it accepts, the state it
leaves; on the others, the fault it raises. -/

namespace Sys2Proof.Machine

/-! ## Sequencing -/

@[simp] theorem Act.bind_go {α β : Type} (a : α) (s : State) (k : α → State → Act β) :
    (Act.go a s).bind k = k a s := rfl
@[simp] theorem Act.bind_ended {α β : Type} (s : State) (k : α → State → Act β) :
    (Act.ended s : Act α).bind k = .ended s := rfl
@[simp] theorem Act.bind_raise {α β : Type} (f : Fault) (s : State) (k : α → State → Act β) :
    (raise f s : Act α).bind k = raise f s := rfl
@[simp] theorem Act.bind_halt {α β : Type} (o : RunOutcome) (s : State) (k : α → State → Act β) :
    (halt o s : Act α).bind k = halt o s := rfl
@[simp] theorem Act.final_go {α : Type} (a : α) (s : State) : (Act.go a s).final = s := rfl
@[simp] theorem Act.final_ended {α : Type} (s : State) : (Act.ended s : Act α).final = s := rfl
@[simp] theorem Act.final_raise {α : Type} (f : Fault) (s : State) :
    (raise f s : Act α).final = s.withStatus (.faulted f) := rfl
@[simp] theorem Act.final_halt {α : Type} (o : RunOutcome) (s : State) :
    (halt o s : Act α).final = s.withStatus (.halted o) := rfl
@[simp] theorem Act.outcome_go {α : Type} (a : α) (s : State) : (Act.go a s).outcome = .next s := rfl
@[simp] theorem Act.outcome_raise {α : Type} (f : Fault) (s : State) :
    (raise f s : Act α).outcome = .next (s.withStatus (.faulted f)) := rfl
@[simp] theorem Act.outcome_halt {α : Type} (o : RunOutcome) (s : State) :
    (halt o s : Act α).outcome = .next (s.withStatus (.halted o)) := rfl

/-- A relation between a state and what a piece of pseudocode leaves is shown line by line. -/
theorem Act.final_bind {α β : Type} (R : State → State → Prop) (htrans : ∀ a b c, R a b → R b c → R a c)
    {m : Act α} {k : α → State → Act β} {s : State} (hm : R s m.final)
    (hk : ∀ a s', m = .go a s' → R s' (k a s').final) : R s (m.bind k).final := by
  cases m with
  | go a s' => exact htrans _ _ _ hm (hk a s' rfl)
  | ended s' => exact hm

/-! ## Addresses -/

/-- The conversion of a popped value, both policies (R54). -/
theorem addressOf_eq_some {p : AddressPolicy} {v : Word} (h : p = .truncate16 ∨ v.toNat < 65536) :
    ∃ a : Addr, addressOf p v = some a ∧ a.toNat = v.toNat % 65536 := by
  refine ⟨v.extractLsb' 0 16, ?_, by simp⟩
  cases p with
  | truncate16 => rfl
  | faultIfWide =>
    have hlt : v.toNat < 65536 := by simpa using h
    simp [addressOf, Nat.not_le.mpr hlt]

theorem addressOf_eq_none {p : AddressPolicy} {v : Word} :
    addressOf p v = none ↔ p = .faultIfWide ∧ 65536 ≤ v.toNat := by
  cases p <;> simp [addressOf]

theorem addrOf_some {v : Word} {s : State} {a : Addr} (h : addressOf s.config.addressPolicy v = some a) :
    addrOf v s = .go a s := by simp [addrOf, h]

theorem addrOf_none {v : Word} {s : State} (h : addressOf s.config.addressPolicy v = none) :
    addrOf v s = raise .addressOutOfRange s := by simp [addrOf, h]

/-! ## Binary operations (R140) -/

/-- On a stack of two or more: the right operand is popped and the result replaces the left in place. -/
theorem binaryOp_occupied (op : Word → Word → Word) {s : State} {rest : List Word} {l r : Word}
    (h : s.occupied = rest ++ [l, r]) :
    ∃ t, binaryOp op s = .go () t ∧ t.occupied = rest ++ [op l r] ∧
      t = s.withStack ⟨s.h.val - 1, by omega⟩ (Cells.write s.slots (s.h.val - 2) (op l r)) := by
  have h' : s.occupied = (rest ++ [l]) ++ [r] := by simpa using h
  obtain ⟨hpop, hocc⟩ := pop_occupied h'
  obtain ⟨hset, hres⟩ := settop_occupied (op l r) hocc
  refine ⟨_, ?_, hres, ?_⟩
  · rw [binaryOp, hpop, Act.bind_go, top_occupied hocc, Act.bind_go, hset]
  · simp only [State.withStack, Nat.sub_sub]

/-- On a shorter stack: StackUnderflow. -/
theorem binaryOp_short (op : Word → Word → Word) {s : State} (h : s.h.val < 2) :
    ∃ t, binaryOp op s = raise .stackUnderflow t := by
  unfold binaryOp
  by_cases h0 : s.h.val = 0
  · exact ⟨s, by rw [pop_of_zero h0]; rfl⟩
  · refine ⟨s.withStack ⟨s.h.val - 1, by omega⟩ s.slots, ?_⟩
    rw [pop_of_ne_zero h0, Act.bind_go, top_of_zero (by simp; omega), Act.bind_raise]

/-! ## Operations on the top -/

theorem topOp_occupied (op : Word → Word) {s : State} {rest : List Word} {v : Word} (h : s.occupied = rest ++ [v]) :
    ∃ t, topOp op s = .go () t ∧ t.occupied = rest ++ [op v] ∧
      t = s.withStack s.h (Cells.write s.slots (s.h.val - 1) (op v)) := by
  obtain ⟨hset, hres⟩ := settop_occupied (op v) h
  exact ⟨_, by rw [topOp, top_occupied h, Act.bind_go, hset], hres, rfl⟩

theorem topOp_of_zero (op : Word → Word) {s : State} (h : s.h.val = 0) : topOp op s = raise .stackUnderflow s := by
  rw [topOp, top_of_zero h, Act.bind_raise]

/-! ## Conditional jumps -/

theorem conditionalJump_occupied (test : Word → Bool) (target : Imm) {s : State} {rest : List Word} {c : Word}
    (h : s.occupied = rest ++ [c]) :
    ∃ t, conditionalJump test target s = .go () t ∧ t.occupied = rest ∧
      t = (s.withStack ⟨s.h.val - 1, by omega⟩ s.slots).withIp (if test c then target.toNat else s.ip) := by
  obtain ⟨hpop, hocc⟩ := pop_occupied h
  refine ⟨_, ?_, ?_, rfl⟩
  · rw [conditionalJump, hpop, Act.bind_go]
    cases test c <;> rfl
  · rw [State.withIp_occupied, hocc]

theorem conditionalJump_of_zero (test : Word → Bool) (target : Imm) {s : State} (h : s.h.val = 0) :
    conditionalJump test target s = raise .stackUnderflow s := by
  rw [conditionalJump, pop_of_zero h, Act.bind_raise]

end Sys2Proof.Machine
end

