-- ==== Sys2Proof/Laws/Fetch.lean ====
section
/-! SUPPORT. The fetch of an instruction, read byte by byte from the buffer, against the decoder of byte sequences, and the
shape of a step. -/

namespace Sys2Proof.Machine

theorem codeRead_some {k : Nat} {s : State} {b : Byte} (h : s.code[k]? = some b) : codeRead k s = .go b s := by
  simp [codeRead, h]

theorem codeRead_none {k : Nat} {s : State} (h : s.code.length ≤ k) : codeRead k s = raise .fetchOutOfBounds s := by
  simp [codeRead, List.getElem?_eq_none h]

theorem fetchOpcode_some {s : State} {b : Byte} (h : s.code[s.ip]? = some b) :
    fetchOpcode s = .go b (s.withIp (s.ip + 1)) := by
  rw [fetchOpcode, codeRead_some h, Act.bind_go]

theorem fetchImm_some {s : State} {hi lo : Byte} (hhi : s.code[s.ip]? = some hi) (hlo : s.code[s.ip + 1]? = some lo) :
    fetchImm s = .go (joinImm hi lo) (s.withIp (s.ip + 2)) := by
  rw [fetchImm, codeRead_some hhi, Act.bind_go, codeRead_some hlo, Act.bind_go]

theorem peekImm_some {s : State} {hi lo : Byte} (hhi : s.code[s.ip]? = some hi) (hlo : s.code[s.ip + 1]? = some lo) :
    peekImm s = .go (joinImm hi lo) s := by
  rw [peekImm, codeRead_some hhi, Act.bind_go, codeRead_some hlo, Act.bind_go]

/-- An immediate that the buffer cuts short, however many of its bytes are left. -/
theorem fetchImm_short {s : State} (h : s.code.length ≤ s.ip + 1) : fetchImm s = raise .fetchOutOfBounds s := by
  unfold fetchImm
  cases hb : s.code[s.ip]? with
  | none => rw [codeRead_none (List.getElem?_eq_none_iff.mp hb), Act.bind_raise]
  | some b => rw [codeRead_some hb, Act.bind_go, codeRead_none h, Act.bind_raise]

theorem peekImm_short {s : State} (h : s.code.length ≤ s.ip + 1) : peekImm s = raise .fetchOutOfBounds s := by
  unfold peekImm
  cases hb : s.code[s.ip]? with
  | none => rw [codeRead_none (List.getElem?_eq_none_iff.mp hb), Act.bind_raise]
  | some b => rw [codeRead_some hb, Act.bind_go, codeRead_none h, Act.bind_raise]

/-- How far reading the whole instruction moves `ip`, by opcode. -/
theorem Mnemonic.ipAdvance_instr (m : Mnemonic) (imm : Imm) :
    (m.instr imm).ipAdvance = if m.hasImm then (if m = .jump then 1 else 3) else 1 := by cases m <;> rfl

/-- The byte-by-byte fetch reads the instruction the decoder of byte sequences reads from `ip` on, and moves `ip` past the
bytes it consumes. -/
theorem fetchInstr_of_decode {s : State} {i : Instr} {rest : List Byte}
    (h : decode s.config (s.code.drop s.ip) = .ok (i, rest)) :
    fetchInstr s = .go i (s.withIp (s.ip + i.ipAdvance)) := by
  have hget : ∀ k, s.code[s.ip + k]? = (s.code.drop s.ip)[k]? := fun k => (List.getElem?_drop).symm
  cases hbs : s.code.drop s.ip with
  | nil => simp [hbs, decode] at h
  | cons b bs =>
    rw [hbs] at h
    have hb : s.code[s.ip]? = some b := by simpa [hbs] using hget 0
    rw [fetchInstr, fetchOpcode_some hb, Act.bind_go, State.withIp_config]
    simp only [decode] at h
    cases hm : decodeOpcode s.config b with
    | none =>
      simp only [hm, Except.ok.injEq, Prod.mk.injEq] at h
      rw [← h.1]; rfl
    | some m =>
      simp only [hm] at h
      by_cases himm : m.hasImm = true
      · rw [if_pos himm] at h
        match bs, h, hbs with
        | hi :: lo :: rest', h, hbs =>
          simp only [Except.ok.injEq, Prod.mk.injEq] at h
          have hhi : s.code[s.ip + 1]? = some hi := by simpa [hbs] using hget 1
          have hlo : s.code[s.ip + 2]? = some lo := by simpa [hbs] using hget 2
          simp only [readImm, if_pos himm]
          by_cases hj : m = .jump
          · rw [if_pos hj, peekImm_some (hi := hi) (lo := lo) hhi hlo, Act.bind_go, ← h.1, Mnemonic.ipAdvance_instr,
              if_pos himm, if_pos hj]
          · rw [if_neg hj, fetchImm_some (hi := hi) (lo := lo) hhi hlo, Act.bind_go, ← h.1, Mnemonic.ipAdvance_instr,
              if_pos himm, if_neg hj]
            rfl
      · rw [if_neg himm] at h
        simp only [Except.ok.injEq, Prod.mk.injEq] at h
        have hadv : i.ipAdvance = 1 := by rw [← h.1, Mnemonic.ipAdvance_instr, if_neg himm]
        have hinstr : ∀ imm, m.instr imm = i := by intro imm; rw [← h.1]; cases m <;> first | rfl | exact absurd rfl himm
        simp only [readImm, if_neg himm, Act.bind_go, hinstr, hadv]

/-- Where the decoder of byte sequences finds no whole instruction, the fetch raises FetchOutOfBounds. -/
theorem fetchInstr_of_error {s : State} {e : DecodeError} (h : decode s.config (s.code.drop s.ip) = .error e) :
    ∃ n, fetchInstr s = raise .fetchOutOfBounds (s.withIp (s.ip + n)) := by
  cases hb : s.code[s.ip]? with
  | none =>
    refine ⟨0, ?_⟩
    rw [fetchInstr, fetchOpcode, codeRead_none (List.getElem?_eq_none_iff.mp hb)]
    rfl
  | some b =>
    have hlt : s.ip < s.code.length := (List.getElem?_eq_some_iff.mp hb).1
    rw [List.drop_eq_getElem_cons hlt, (List.getElem?_eq_some_iff.mp hb).2] at h
    refine ⟨1, ?_⟩
    rw [fetchInstr, fetchOpcode_some hb, Act.bind_go, State.withIp_config]
    simp only [decode] at h
    cases hm : decodeOpcode s.config b with
    | none => simp [hm] at h
    | some m =>
      simp only [hm] at h
      by_cases himm : m.hasImm = true
      · have hshort : s.code.length ≤ s.ip + 2 := by
          by_contra hlong
          rw [if_pos himm, List.drop_eq_getElem_cons (by omega), List.drop_eq_getElem_cons (by omega)] at h
          cases h
        simp only [readImm, if_pos himm]
        rw [peekImm_short (s := s.withIp (s.ip + 1)) hshort, fetchImm_short (s := s.withIp (s.ip + 1)) hshort, ite_self]
        rfl
      · rw [if_neg himm] at h
        cases h

/-- What a fetch does to the machine: it moves `ip` by 1 or 3, or it raises FetchOutOfBounds with `ip` moved by at most 1. -/
theorem fetchInstr_cases (s : State) :
    (∃ i n, fetchInstr s = .go i (s.withIp (s.ip + n)) ∧ s.ip + n ≤ s.code.length) ∨
    (∃ n, n ≤ 1 ∧ fetchInstr s = raise .fetchOutOfBounds (s.withIp (s.ip + n)) ∧ (n = 1 → s.ip < s.code.length)) := by
  cases hb : s.code[s.ip]? with
  | none =>
    refine .inr ⟨0, by omega, ?_, by omega⟩
    rw [fetchInstr, fetchOpcode, codeRead_none (List.getElem?_eq_none_iff.mp hb)]
    rfl
  | some b =>
    have hlt : s.ip < s.code.length := (List.getElem?_eq_some_iff.mp hb).1
    rw [fetchInstr, fetchOpcode_some hb, Act.bind_go, State.withIp_config]
    cases decodeOpcode s.config b with
    | none => exact .inl ⟨_, 1, rfl, hlt⟩
    | some m =>
      simp only [readImm]
      by_cases himm : m.hasImm = true
      · rw [if_pos himm]
        by_cases hshort : s.code.length ≤ s.ip + 2
        · refine .inr ⟨1, le_rfl, ?_, fun _ => hlt⟩
          rw [peekImm_short hshort, fetchImm_short hshort, ite_self]
          rfl
        · have hhi : s.code[s.ip + 1]? = some s.code[s.ip + 1] := List.getElem?_eq_getElem (by omega)
          have hlo : s.code[s.ip + 2]? = some s.code[s.ip + 2] := List.getElem?_eq_getElem (by omega)
          by_cases hj : m = .jump
          · exact .inl ⟨_, 1, by rw [if_pos hj, peekImm_some hhi hlo, Act.bind_go], hlt⟩
          · exact .inl ⟨_, 3, by rw [if_neg hj, fetchImm_some hhi hlo, Act.bind_go]; rfl, by omega⟩
      · rw [if_neg himm]
        exact .inl ⟨_, 1, rfl, hlt⟩

/-! ## A step -/

theorem step_running {s : State} (h : s.status = .running) :
    step s = match fetchInstr s with
      | .go i t => exec i t
      | .ended t => .next t := by
  cases hf : fetchInstr s <;> simp only [step, h, hf]

theorem step_go {s t : State} {i : Instr} (h : s.status = .running) (hf : fetchInstr s = .go i t) :
    step s = exec i t := by rw [step_running h, hf]

theorem step_ended {s t : State} (h : s.status = .running) (hf : fetchInstr s = .ended t) : step s = .next t := by
  rw [step_running h, hf]

/-- A step that leaves a next state started Running. -/
theorem running_of_step {s t : State} (h : step s = .next t) : s.status = .running := by
  unfold step at h
  cases hs : s.status <;> simp [hs] at h
  rfl

end Sys2Proof.Machine
end

