-- ==== Sys2Proof/Laws/Exec.lean ====
section
/-! SUPPORT. What an instruction can do to the state, said once: it rewrites the stack and perhaps the status, or beside the
stack exactly one of memory, `res`, `out` and `ip`, and which instructions do which. -/

namespace Sys2Proof.Machine

/-- t is s with another stack, in canonical form if the old one was, and perhaps another status. -/
def StackAndStatus (s t : State) : Prop :=
  ∃ h c st, t = (s.withStack h c).withStatus st ∧ (Slots.wf s.slots = true → Slots.wf c = true)

theorem StackAndStatus.refl (s : State) : StackAndStatus s s := ⟨s.h, s.slots, s.status, rfl, id⟩

theorem StackAndStatus.trans (a b c : State) (h₁ : StackAndStatus a b) (h₂ : StackAndStatus b c) :
    StackAndStatus a c := by
  obtain ⟨_, _, _, rfl, hw₁⟩ := h₁
  obtain ⟨_, _, _, rfl, hw₂⟩ := h₂
  exact ⟨_, _, _, rfl, fun hw => hw₂ (hw₁ hw)⟩

theorem StackAndStatus.withStatus (s : State) (st : Status) : StackAndStatus s (s.withStatus st) :=
  ⟨s.h, s.slots, st, rfl, id⟩

/-! ## The primitives -/

/-- Everything pop can do. -/
theorem pop_cases (s : State) :
    (s.h.val = 0 ∧ pop s = raise .stackUnderflow s) ∨
    (s.h.val ≠ 0 ∧ pop s = .go (s.slot (s.h.val - 1)) (s.withStack ⟨s.h.val - 1, by omega⟩ s.slots)) := by
  by_cases h : s.h.val = 0
  · exact .inl ⟨h, pop_of_zero h⟩
  · exact .inr ⟨h, pop_of_ne_zero h⟩

theorem push_final (v : Word) (s : State) : StackAndStatus s (push v s).final := by
  by_cases h : s.h.val = 256
  · rw [push_full h]; exact .withStatus s _
  · rw [push_room v (by omega)]
    exact ⟨_, _, s.status, rfl, fun hw => Cells.wfFrom_write v (by omega) hw⟩

theorem pop_final (s : State) : StackAndStatus s (pop s).final := by
  obtain ⟨_, h⟩ | ⟨_, h⟩ := pop_cases s <;> rw [h]
  · exact .withStatus s _
  · exact ⟨⟨s.h.val - 1, by omega⟩, s.slots, s.status, rfl, id⟩

theorem top_final (s : State) : StackAndStatus s (top s).final := by
  by_cases h : s.h.val = 0
  · rw [top_of_zero h]; exact .withStatus s _
  · rw [top_of_ne_zero h]; exact .refl s

theorem settop_final (v : Word) (s : State) : StackAndStatus s (settop v s).final := by
  by_cases h : s.h.val = 0
  · rw [settop_of_zero h]; exact .withStatus s _
  · rw [settop_of_ne_zero v h]
    exact ⟨_, _, s.status, rfl, fun hw => Cells.wfFrom_write v (by omega) hw⟩

theorem addrOf_final (v : Word) (s : State) : StackAndStatus s (addrOf v s).final := by
  unfold addrOf
  cases addressOf s.config.addressPolicy v with
  | none => exact .withStatus s _
  | some a => exact .refl s

theorem binaryOp_final (op : Word → Word → Word) (s : State) : StackAndStatus s (binaryOp op s).final :=
  Act.final_bind _ StackAndStatus.trans (pop_final s) fun _ s₁ _ =>
    Act.final_bind _ StackAndStatus.trans (top_final s₁) fun _ s₂ _ => settop_final _ s₂

theorem topOp_final (op : Word → Word) (s : State) : StackAndStatus s (topOp op s).final :=
  Act.final_bind _ StackAndStatus.trans (top_final s) fun _ s₁ _ => settop_final _ s₁

/-! ## The instructions -/

/-- Every instruction answers a next state. -/
theorem exec_answers_next (i : Instr) (s : State) : ∃ t, exec i s = .next t := by cases i <;> exact ⟨_, rfl⟩

/-- A pop that goes on, followed by one update of the state. -/
theorem popThen_cases {f : Word → State → State} {s t : State}
    (h : ((pop s).bind fun v s => Act.go () (f v s)).outcome = .next t) :
    StackAndStatus s t ∨ ∃ v u, StackAndStatus s u ∧ t = f v u := by
  have hp := pop_final s
  cases hpop : pop s with
  | ended u => rw [hpop] at h hp; cases h; exact .inl hp
  | go v u => rw [hpop] at h hp; cases h; exact .inr ⟨v, u, hp, rfl⟩

theorem conditionalJump_cases {test : Word → Bool} {target : Imm} {s t : State}
    (h : (conditionalJump test target s).outcome = .next t) :
    StackAndStatus s t ∨ ∃ u, StackAndStatus s u ∧ t = jumpTo target u := by
  have hp := pop_final s
  unfold conditionalJump at h
  cases hpop : pop s with
  | ended u => rw [hpop] at h hp; cases h; exact .inl hp
  | go v u =>
    rw [hpop] at h hp
    rw [Act.bind_go] at h
    cases hc : test v <;> rw [hc] at h <;> cases h
    · exact .inl hp
    · exact .inr ⟨u, hp, rfl⟩

theorem execStoreIndirect_cases {s t : State} (h : execStoreIndirect s = .next t) :
    StackAndStatus s t ∨ ∃ u a v, StackAndStatus s u ∧ t = u.store a v := by
  have hp := pop_final s
  unfold execStoreIndirect at h
  cases hpop : pop s with
  | ended u => rw [hpop] at h hp; cases h; exact .inl hp
  | go val u =>
    rw [hpop] at h hp
    rw [Act.bind_go] at h
    have hp' := pop_final u
    cases hpop' : pop u with
    | ended w => rw [hpop'] at h hp'; cases h; exact .inl (.trans _ _ _ hp hp')
    | go v w =>
      rw [hpop'] at h hp'
      rw [Act.bind_go, addrOf] at h
      split at h <;> cases h
      · exact .inr ⟨w, _, val, .trans _ _ _ hp hp', rfl⟩
      · exact .inl (.trans _ _ _ hp (.trans _ _ _ hp' (.withStatus w _)))

/-- Everything an instruction can do. -/
theorem exec_cases {i : Instr} {s t : State} (h : exec i s = .next t) :
    StackAndStatus s t ∨
    (∃ u a v, StackAndStatus s u ∧ t = u.store a v ∧ (i = .storeMemImm a ∨ i = .storeIndirect)) ∨
    (i = .popResult ∧ ∃ u v, StackAndStatus s u ∧ t = u.withRes v) ∨
    (i = .print ∧ ∃ u v, StackAndStatus s u ∧ t = u.emit v) ∨
    (∃ u target, StackAndStatus s u ∧ t = jumpTo target u ∧
      (i = .jump target ∨ i = .jumpIfTrue target ∨ i = .jumpIfFalse target)) := by
  cases i with
  | abort => cases h; exact .inl (.withStatus s _)
  | done => cases h; exact .inl (.withStatus s _)
  | undefined b => cases h; exact .inl (.withStatus s _)
  | pushImm imm => cases h; exact .inl (push_final _ s)
  | loadMemImm a => cases h; exact .inl (push_final _ s)
  | loadAddMemImm a => cases h; exact .inl (topOp_final _ s)
  | addImm imm => cases h; exact .inl (topOp_final _ s)
  | greaterOrEqualImm imm => cases h; exact .inl (topOp_final _ s)
  | add => cases h; exact .inl (binaryOp_final _ s)
  | sub => cases h; exact .inl (binaryOp_final _ s)
  | mul => cases h; exact .inl (binaryOp_final _ s)
  | equal => cases h; exact .inl (binaryOp_final _ s)
  | less => cases h; exact .inl (binaryOp_final _ s)
  | lessOrEqual => cases h; exact .inl (binaryOp_final _ s)
  | greater => cases h; exact .inl (binaryOp_final _ s)
  | greaterOrEqual => cases h; exact .inl (binaryOp_final _ s)
  | discard => cases h; exact .inl (pop_final s)
  | dup =>
    cases h
    exact .inl (Act.final_bind _ StackAndStatus.trans (top_final s) fun _ s₁ _ => push_final _ s₁)
  | div =>
    cases h
    refine .inl (Act.final_bind _ StackAndStatus.trans (pop_final s) fun r s₁ _ => ?_)
    split
    · exact .withStatus s₁ _
    · exact Act.final_bind _ StackAndStatus.trans (top_final s₁) fun _ s₂ _ => settop_final _ s₂
  | loadIndirect =>
    cases h
    exact .inl (Act.final_bind _ StackAndStatus.trans (pop_final s) fun _ s₁ _ =>
      Act.final_bind _ StackAndStatus.trans (addrOf_final _ s₁) fun _ s₂ _ => push_final _ s₂)
  | storeMemImm a =>
    obtain h | ⟨v, u, hu, rfl⟩ := popThen_cases (f := fun v s => s.store a v) h
    · exact .inl h
    · exact .inr (.inl ⟨u, a, v, hu, rfl, .inl rfl⟩)
  | storeIndirect =>
    obtain h | ⟨u, a, v, hu, rfl⟩ := execStoreIndirect_cases h
    · exact .inl h
    · exact .inr (.inl ⟨u, a, v, hu, rfl, .inr rfl⟩)
  | popResult =>
    obtain h | ⟨v, u, hu, rfl⟩ := popThen_cases (f := fun v s => s.withRes v) h
    · exact .inl h
    · exact .inr (.inr (.inl ⟨rfl, u, v, hu, rfl⟩))
  | print =>
    obtain h | ⟨v, u, hu, rfl⟩ := popThen_cases (f := fun v s => s.emit v) h
    · exact .inl h
    · exact .inr (.inr (.inr (.inl ⟨rfl, u, v, hu, rfl⟩)))
  | jump target =>
    cases h
    exact .inr (.inr (.inr (.inr ⟨s, target, .refl s, rfl, .inl rfl⟩)))
  | jumpIfTrue target =>
    obtain h | ⟨u, hu, rfl⟩ := conditionalJump_cases h
    · exact .inl h
    · exact .inr (.inr (.inr (.inr ⟨u, target, hu, rfl, .inr (.inl rfl)⟩)))
  | jumpIfFalse target =>
    obtain h | ⟨u, hu, rfl⟩ := conditionalJump_cases h
    · exact .inl h
    · exact .inr (.inr (.inr (.inr ⟨u, target, hu, rfl, .inr (.inr rfl)⟩)))

end Sys2Proof.Machine
end

