-- ==== Sys2Proof/Laws/PerInstr.lean ====
section
/-! SUPPORT. Statements made constructor by constructor. `Format`: the encoding of an instruction is as long as the table says
and starts with its opcode byte, and the decoder's advance of `ip` is all of it but for JUMP (30_encoding.md R71 to R75). -/

namespace Sys2Proof.Laws

/-- Length, first byte and immediate bytes of an encoding. -/
def Format.Statement (i : Instr) : Prop :=
  ∀ c : Config, (encode c i).length = i.size ∧
    (i.size = 1 ∧ encode c i = [(encode c i).headD 0] ∨
      i.size = 3 ∧ ∃ m imm, i = m.instr imm ∧ m.hasImm = true ∧ encode c i = [c.opcodeValue m, immHigh imm, immLow imm]) ∧
    (i.ipAdvance = i.size ∨ ∃ t, i = .jump t ∧ i.ipAdvance = 1)

theorem Format.abort : Format.Statement .abort := fun _ => ⟨rfl, .inl ⟨rfl, rfl⟩, .inl rfl⟩
theorem Format.pushImm (imm : Imm) : Format.Statement (.pushImm imm) :=
  fun _ => ⟨rfl, .inr ⟨rfl, .pushImm, imm, rfl, rfl, rfl⟩, .inl rfl⟩
theorem Format.loadMemImm (addr : Imm) : Format.Statement (.loadMemImm addr) :=
  fun _ => ⟨rfl, .inr ⟨rfl, .loadMemImm, addr, rfl, rfl, rfl⟩, .inl rfl⟩
theorem Format.loadAddMemImm (addr : Imm) : Format.Statement (.loadAddMemImm addr) :=
  fun _ => ⟨rfl, .inr ⟨rfl, .loadAddMemImm, addr, rfl, rfl, rfl⟩, .inl rfl⟩
theorem Format.storeMemImm (addr : Imm) : Format.Statement (.storeMemImm addr) :=
  fun _ => ⟨rfl, .inr ⟨rfl, .storeMemImm, addr, rfl, rfl, rfl⟩, .inl rfl⟩
theorem Format.loadIndirect : Format.Statement .loadIndirect := fun _ => ⟨rfl, .inl ⟨rfl, rfl⟩, .inl rfl⟩
theorem Format.storeIndirect : Format.Statement .storeIndirect := fun _ => ⟨rfl, .inl ⟨rfl, rfl⟩, .inl rfl⟩
theorem Format.dup : Format.Statement .dup := fun _ => ⟨rfl, .inl ⟨rfl, rfl⟩, .inl rfl⟩
theorem Format.discard : Format.Statement .discard := fun _ => ⟨rfl, .inl ⟨rfl, rfl⟩, .inl rfl⟩
theorem Format.add : Format.Statement .add := fun _ => ⟨rfl, .inl ⟨rfl, rfl⟩, .inl rfl⟩
theorem Format.addImm (imm : Imm) : Format.Statement (.addImm imm) :=
  fun _ => ⟨rfl, .inr ⟨rfl, .addImm, imm, rfl, rfl, rfl⟩, .inl rfl⟩
theorem Format.sub : Format.Statement .sub := fun _ => ⟨rfl, .inl ⟨rfl, rfl⟩, .inl rfl⟩
theorem Format.div : Format.Statement .div := fun _ => ⟨rfl, .inl ⟨rfl, rfl⟩, .inl rfl⟩
theorem Format.mul : Format.Statement .mul := fun _ => ⟨rfl, .inl ⟨rfl, rfl⟩, .inl rfl⟩
theorem Format.jump (target : Imm) : Format.Statement (.jump target) :=
  fun _ => ⟨rfl, .inr ⟨rfl, .jump, target, rfl, rfl, rfl⟩, .inr ⟨target, rfl, rfl⟩⟩
theorem Format.jumpIfTrue (target : Imm) : Format.Statement (.jumpIfTrue target) :=
  fun _ => ⟨rfl, .inr ⟨rfl, .jumpIfTrue, target, rfl, rfl, rfl⟩, .inl rfl⟩
theorem Format.jumpIfFalse (target : Imm) : Format.Statement (.jumpIfFalse target) :=
  fun _ => ⟨rfl, .inr ⟨rfl, .jumpIfFalse, target, rfl, rfl, rfl⟩, .inl rfl⟩
theorem Format.equal : Format.Statement .equal := fun _ => ⟨rfl, .inl ⟨rfl, rfl⟩, .inl rfl⟩
theorem Format.less : Format.Statement .less := fun _ => ⟨rfl, .inl ⟨rfl, rfl⟩, .inl rfl⟩
theorem Format.lessOrEqual : Format.Statement .lessOrEqual := fun _ => ⟨rfl, .inl ⟨rfl, rfl⟩, .inl rfl⟩
theorem Format.greater : Format.Statement .greater := fun _ => ⟨rfl, .inl ⟨rfl, rfl⟩, .inl rfl⟩
theorem Format.greaterOrEqual : Format.Statement .greaterOrEqual := fun _ => ⟨rfl, .inl ⟨rfl, rfl⟩, .inl rfl⟩
theorem Format.greaterOrEqualImm (imm : Imm) : Format.Statement (.greaterOrEqualImm imm) :=
  fun _ => ⟨rfl, .inr ⟨rfl, .greaterOrEqualImm, imm, rfl, rfl, rfl⟩, .inl rfl⟩
theorem Format.popResult : Format.Statement .popResult := fun _ => ⟨rfl, .inl ⟨rfl, rfl⟩, .inl rfl⟩
theorem Format.done : Format.Statement .done := fun _ => ⟨rfl, .inl ⟨rfl, rfl⟩, .inl rfl⟩
theorem Format.print : Format.Statement .print := fun _ => ⟨rfl, .inl ⟨rfl, rfl⟩, .inl rfl⟩
theorem Format.undefined (b : Byte) : Format.Statement (.undefined b) := fun _ => ⟨rfl, .inl ⟨rfl, rfl⟩, .inl rfl⟩

end Sys2Proof.Laws
end

