-- ==== Sys2Proof/Laws/Runs.lean ====
section
/-! SUPPORT. Runs of several steps, what one step is made of, what a launch starts from, and the two formats as a step meets
them. -/

namespace Sys2Proof.Machine

/-! ## Runs -/

theorem run_succ (n : Nat) (s : State) :
    Host.Core.run Sys2Proof.core (n + 1) s = match step s with
      | .next t => Host.Core.run Sys2Proof.core n t
      | .fault f => .fault f
      | .refused r => .refused r := by
  simp only [Host.Core.run, core]
  cases step s <;> rfl

theorem stepsTo_zero {s t : State} : StepsTo 0 s t ↔ s = t :=
  ⟨fun h => by cases h; rfl, fun h => congrArg Host.Outcome.next h⟩

theorem stepsTo_succ {n : Nat} {s t : State} : StepsTo (n + 1) s t ↔ ∃ u, step s = .next u ∧ StepsTo n u t := by
  unfold StepsTo
  rw [run_succ]
  cases step s <;> simp

/-- The last step of a run, as well as the first. -/
theorem stepsTo_succ_last {n : Nat} {s t : State} : StepsTo (n + 1) s t ↔ ∃ u, StepsTo n s u ∧ step u = .next t := by
  induction n generalizing s with
  | zero => simp only [stepsTo_succ, stepsTo_zero, exists_eq_right, exists_eq_left']
  | succ n ih =>
    rw [stepsTo_succ]
    simp only [ih]
    constructor
    · rintro ⟨u, hu, w, hw, ht⟩
      exact ⟨w, stepsTo_succ.mpr ⟨u, hu, hw⟩, ht⟩
    · rintro ⟨w, hw, ht⟩
      obtain ⟨u, hu, hw⟩ := stepsTo_succ.mp hw
      exact ⟨u, hu, w, hw, ht⟩

/-! ## One step -/

/-- A running machine always has a next state. -/
theorem step_answers_next {s : State} (h : s.status = .running) : ∃ t, step s = .next t := by
  cases hf : fetchInstr s with
  | go i u => rw [step_go h hf]; exact exec_answers_next i u
  | ended u => exact ⟨u, step_ended h hf⟩

/-- A step is the fetch of an instruction and its execution, or a fetch that faults. -/
theorem step_cases {s t : State} (h : step s = .next t) :
    (∃ i n, fetchInstr s = .go i (s.withIp (s.ip + n)) ∧ s.ip + n ≤ s.code.length ∧
      exec i (s.withIp (s.ip + n)) = .next t) ∨
    (∃ n, n ≤ 1 ∧ (n = 1 → s.ip < s.code.length) ∧
      t = (s.withIp (s.ip + n)).withStatus (.faulted .fetchOutOfBounds)) := by
  have hr := running_of_step h
  obtain ⟨i, n, hf, hn⟩ | ⟨n, hn, hf, hl⟩ := fetchInstr_cases s
  · exact .inl ⟨i, n, hf, hn, by rw [← step_go hr hf, h]⟩
  · rw [step_ended hr hf] at h
    cases h
    exact .inr ⟨n, hn, hl, rfl⟩

theorem exec_config_code {i : Instr} {s t : State} (h : exec i s = .next t) : t.config = s.config ∧ t.code = s.code := by
  obtain ⟨_, _, _, rfl, _⟩ | ⟨_, _, _, ⟨_, _, _, rfl, _⟩, rfl, _⟩ | ⟨_, _, _, ⟨_, _, _, rfl, _⟩, rfl⟩ |
    ⟨_, _, _, ⟨_, _, _, rfl, _⟩, rfl⟩ | ⟨_, _, ⟨_, _, _, rfl, _⟩, rfl, _⟩ := exec_cases h <;> exact ⟨rfl, rfl⟩

/-- What `nextInstr` answers. -/
theorem nextInstr_eq_some {s u : State} {i : Instr} :
    nextInstr s = some (i, u) ↔ s.status = .running ∧ fetchInstr s = .go i u := by
  unfold nextInstr
  cases s.status <;> cases fetchInstr s <;> simp

/-! ## A launch -/

theorem launch_some {s t : State} {code : List Byte} (h : launch code s = some t) : t = s.launchReset.withCode code := by
  simp only [launch] at h
  split at h <;> cases h
  rfl

/-- A launch starts from the reset state, whatever ran before. -/
theorem launch_launched {s t : State} {code : List Byte} (h : launch code s = some t) :
    t = State.launched s.config code := launch_some h

/-! ## The formats -/

/-- Every F1 opcode is fetched and executed as format F1 says. -/
theorem isF1_of {m : Mnemonic} {i : Instr} (hm : m.hasImm = false) (hi : m.instr 0 = i)
    (he : ∀ c, encode c i = [c.opcodeValue m]) : IsF1 m i := by
  refine ⟨he, fun s hr hw hb => step_go hr ?_⟩
  have hd : decodeDirect (s.withIp (s.ip + 1)).config (s.config.opcodeValue m) = some m := decodeDirect_opcodeValue hw m
  rw [fetchInstr, fetchOpcode_some hb, Act.bind_go, decodeOpcode_eq_decodeDirect (by exact hw), hd]
  simpa [readImm, hm] using hi

/-- The step of an F3 opcode whose immediate the buffer cuts short, whatever the stack. -/
theorem step_cut_short {m : Mnemonic} (hm : m.hasImm = true) {s : State} (hr : s.status = .running)
    (hw : s.config.wellFormed = true) (hb : s.code[s.ip]? = some (s.config.opcodeValue m))
    (hs : s.code.length ≤ s.ip + 2) : FaultsWith .fetchOutOfBounds (step s) := by
  have hd : decodeDirect (s.withIp (s.ip + 1)).config (s.config.opcodeValue m) = some m := decodeDirect_opcodeValue hw m
  refine ⟨(s.withIp (s.ip + 1)).withStatus (.faulted .fetchOutOfBounds), step_ended hr ?_, rfl⟩
  rw [fetchInstr, fetchOpcode_some hb, Act.bind_go, decodeOpcode_eq_decodeDirect (by exact hw), hd]
  simp only [readImm, hm, if_true]
  rw [peekImm_short (s := s.withIp (s.ip + 1)) hs, fetchImm_short (s := s.withIp (s.ip + 1)) hs, ite_self]
  rfl

/-- Every F3 opcode is fetched and executed as format F3 says. -/
theorem isF3_of {m : Mnemonic} {mk : Imm → Instr} (hm : m.hasImm = true) (hi : ∀ imm, m.instr imm = mk imm)
    (he : ∀ c imm, encode c (mk imm) = encodeF3 c m imm) : IsF3 m mk (if m = .jump then 1 else 3) := by
  refine ⟨he, fun s hr hw hb => ⟨fun imm hhi hlo => ?_, fun hs => ⟨_, step_cut_short hm hr hw hb hs, .inl rfl⟩⟩⟩
  have hd : decodeDirect (s.withIp (s.ip + 1)).config (s.config.opcodeValue m) = some m := decodeDirect_opcodeValue hw m
  have hf : fetchInstr s = .go (mk imm) (s.withIp (s.ip + if m = .jump then 1 else 3)) := by
    rw [fetchInstr, fetchOpcode_some hb, Act.bind_go, decodeOpcode_eq_decodeDirect (by exact hw), hd]
    simp only [readImm, hm, if_true]
    by_cases hj : m = .jump
    · rw [if_pos hj, peekImm_some (s := s.withIp (s.ip + 1)) hhi hlo, Act.bind_go, hi, joinImm_halves, if_pos hj]
    · rw [if_neg hj, fetchImm_some (s := s.withIp (s.ip + 1)) hhi hlo, Act.bind_go, hi, joinImm_halves, if_neg hj]
      rfl
  exact ⟨hf, step_go hr hf⟩

end Sys2Proof.Machine
end

