-- ==== Sys2Proof/Laws/Unread.lean ====
section
/-! SUPPORT. An update of what the instructions do not read commutes with every instruction: the shared proof behind the rules
that say nothing reads the code buffer as data, the output, the result register or the dispatch mode. -/

namespace Sys2Proof.Machine

/-- A piece of pseudocode with a function applied to the state it leaves. -/
def Act.mapState {α : Type} (g : State → State) : Act α → Act α
  | .go a s => .go a (g s)
  | .ended s => .ended (g s)

@[simp] theorem Act.mapState_go {α : Type} (g : State → State) (a : α) (s : State) :
    (Act.go a s).mapState g = .go a (g s) := rfl

theorem Act.outcome_mapState {α : Type} (g : State → State) (m : Act α) :
    (m.mapState g).outcome = mapNext g m.outcome := by cases m <;> rfl

theorem Act.bind_mapState {α β : Type} {g : State → State} (m : Act α) {k : α → State → Act β}
    (hk : ∀ a s, k a (g s) = (k a s).mapState g) : (m.mapState g).bind k = (m.bind k).mapState g := by
  cases m with
  | go a s => exact hk a s
  | ended s => rfl

/-- An update that leaves alone what the instructions read, and that each update they make commutes with. -/
structure Unread (g : State → State) : Prop where
  h : ∀ s, (g s).h = s.h
  slots : ∀ s, (g s).slots = s.slots
  mem : ∀ s, (g s).mem = s.mem
  policy : ∀ s, (g s).config.addressPolicy = s.config.addressPolicy
  withStack : ∀ s h c, g (s.withStack h c) = (g s).withStack h c
  withMem : ∀ s m, g (s.withMem m) = (g s).withMem m
  withStatus : ∀ s st, g (s.withStatus st) = (g s).withStatus st
  withIp : ∀ s ip, g (s.withIp ip) = (g s).withIp ip
  emit : ∀ s v, g (s.emit v) = (g s).emit v

namespace Unread

variable {g : State → State} (hg : Unread g)
include hg

theorem raise {α : Type} (f : Fault) (s : State) : (raise f (g s) : Act α) = (Machine.raise f s).mapState g := by
  simp only [Machine.raise, Act.mapState, hg.withStatus]

theorem halt {α : Type} (o : RunOutcome) (s : State) : (halt o (g s) : Act α) = (Machine.halt o s).mapState g := by
  simp only [Machine.halt, Act.mapState, hg.withStatus]

theorem slot (s : State) (k : Nat) : (g s).slot k = s.slot k := by simp only [State.slot, hg.slots]

theorem load (s : State) (a : Addr) : (g s).load a = s.load a := by simp only [State.load, hg.mem]

theorem store (s : State) (a : Addr) (v : Word) : g (s.store a v) = (g s).store a v := by
  simp only [State.store, hg.withMem, hg.mem]

theorem jumpTo (s : State) (t : Imm) : Machine.jumpTo t (g s) = g (Machine.jumpTo t s) := by
  simp only [Machine.jumpTo, hg.withIp]

theorem push (v : Word) (s : State) : Machine.push v (g s) = (Machine.push v s).mapState g := by
  by_cases h : s.h.val = 256
  · rw [push_full h, push_full (by rw [hg.h, h]), hg.raise]
  · rw [push_room (s := s) v (by omega), push_room (s := g s) v (by rw [hg.h]; omega), Act.mapState_go, hg.withStack]
    simp only [hg.h, hg.slots]

theorem pop (s : State) : Machine.pop (g s) = (Machine.pop s).mapState g := by
  by_cases h : s.h.val = 0
  · rw [pop_of_zero h, pop_of_zero (by rw [hg.h, h]), hg.raise]
  · rw [pop_of_ne_zero h, pop_of_ne_zero (by rw [hg.h]; exact h), Act.mapState_go, hg.withStack]
    simp only [hg.h, hg.slots, hg.slot]

theorem top (s : State) : Machine.top (g s) = (Machine.top s).mapState g := by
  by_cases h : s.h.val = 0
  · rw [top_of_zero h, top_of_zero (by rw [hg.h, h]), hg.raise]
  · rw [top_of_ne_zero h, top_of_ne_zero (by rw [hg.h]; exact h), Act.mapState_go, hg.slot, hg.h]

theorem settop (v : Word) (s : State) : Machine.settop v (g s) = (Machine.settop v s).mapState g := by
  by_cases h : s.h.val = 0
  · rw [settop_of_zero h, settop_of_zero (by rw [hg.h, h]), hg.raise]
  · rw [settop_of_ne_zero (s := s) v h, settop_of_ne_zero (s := g s) v (by rw [hg.h]; exact h), Act.mapState_go, hg.withStack]
    simp only [hg.h, hg.slots]

theorem addrOf (v : Word) (s : State) : Machine.addrOf v (g s) = (Machine.addrOf v s).mapState g := by
  simp only [Machine.addrOf, hg.policy]
  cases addressOf s.config.addressPolicy v with
  | none => exact hg.raise _ s
  | some a => rfl

theorem binaryOp (op : Word → Word → Word) (s : State) :
    Machine.binaryOp op (g s) = (Machine.binaryOp op s).mapState g := by
  rw [Machine.binaryOp, hg.pop]
  refine Act.bind_mapState _ fun r s => ?_
  rw [hg.top]
  exact Act.bind_mapState _ fun l s => hg.settop _ s

theorem topOp (op : Word → Word) (s : State) : Machine.topOp op (g s) = (Machine.topOp op s).mapState g := by
  rw [Machine.topOp, hg.top]
  exact Act.bind_mapState _ fun t s => hg.settop _ s

theorem conditionalJump (test : Word → Bool) (target : Imm) (s : State) :
    Machine.conditionalJump test target (g s) = (Machine.conditionalJump test target s).mapState g := by
  rw [Machine.conditionalJump, hg.pop]
  refine Act.bind_mapState _ fun c s => ?_
  cases test c
  · rfl
  · simp only [if_true, hg.jumpTo, Act.mapState_go]

/-- Every instruction but POP_RESULT, which alone writes `res`. -/
theorem exec {i : Instr} (hi : i ≠ .popResult) (s : State) : Machine.exec i (g s) = mapNext g (Machine.exec i s) := by
  have out {m m' : Act Unit} (h : m = m'.mapState g) : m.outcome = mapNext g m'.outcome := by
    rw [h, Act.outcome_mapState]
  have cell (a : Addr) : addCell (g s) a = addCell s a := by funext t; simp only [addCell, hg.load]
  cases i with
  | abort => exact out (hg.halt _ s)
  | done => exact out (hg.halt _ s)
  | undefined b => exact out (hg.halt _ s)
  | pushImm imm => exact out (hg.push _ s)
  | loadMemImm a => exact out (by rw [hg.load]; exact hg.push _ s)
  | loadAddMemImm a => exact out (by rw [cell]; exact hg.topOp _ s)
  | addImm imm => exact out (hg.topOp _ s)
  | greaterOrEqualImm imm => exact out (hg.topOp _ s)
  | add => exact out (hg.binaryOp _ s)
  | sub => exact out (hg.binaryOp _ s)
  | mul => exact out (hg.binaryOp _ s)
  | equal => exact out (hg.binaryOp _ s)
  | less => exact out (hg.binaryOp _ s)
  | lessOrEqual => exact out (hg.binaryOp _ s)
  | greater => exact out (hg.binaryOp _ s)
  | greaterOrEqual => exact out (hg.binaryOp _ s)
  | discard =>
    simp only [Machine.exec, execDiscard, hg.pop, Act.outcome_mapState]
  | dup => exact out (by rw [hg.top]; exact Act.bind_mapState _ fun t s => hg.push t s)
  | div =>
    refine out ?_
    rw [hg.pop]
    refine Act.bind_mapState _ fun r s => ?_
    split
    · exact hg.halt _ s
    · rw [hg.top]
      exact Act.bind_mapState _ fun l s => hg.settop _ s
  | storeMemImm a =>
    exact out (by rw [hg.pop]; exact Act.bind_mapState _ fun v s => by rw [Act.mapState_go, hg.store])
  | loadIndirect =>
    refine out ?_
    rw [hg.pop]
    refine Act.bind_mapState _ fun v s => ?_
    rw [hg.addrOf]
    exact Act.bind_mapState _ fun a s => by rw [hg.load]; exact hg.push _ s
  | storeIndirect =>
    refine out ?_
    rw [hg.pop]
    refine Act.bind_mapState _ fun val s => ?_
    rw [hg.pop]
    refine Act.bind_mapState _ fun v s => ?_
    rw [hg.addrOf]
    exact Act.bind_mapState _ fun a s => by rw [Act.mapState_go, hg.store]
  | popResult => exact absurd rfl hi
  | print => exact out (by rw [hg.pop]; exact Act.bind_mapState _ fun v s => by rw [Act.mapState_go, hg.emit])
  | jump t => exact out (by rw [hg.jumpTo, Act.mapState_go])
  | jumpIfTrue t => exact out (hg.conditionalJump _ t s)
  | jumpIfFalse t => exact out (hg.conditionalJump _ t s)

/-- POP_RESULT too, where the update commutes with a write of `res`. -/
theorem exec_popResult (hres : ∀ s v, g (s.withRes v) = (g s).withRes v) (s : State) :
    Machine.exec .popResult (g s) = mapNext g (Machine.exec .popResult s) := by
  refine Eq.trans (congrArg Act.outcome ?_) (Act.outcome_mapState g _)
  rw [hg.pop]
  exact Act.bind_mapState _ fun v s => by rw [Act.mapState_go, hres]

end Unread

end Sys2Proof.Machine
end

