-- ==== Sys2Proof/Tests/Slice0.lean ====
section
/-! SUPPORT. The model's own tests. Expected results come from spec/95_test_vectors.md ("V<n>" and "P<n>") and from the
rules, never from the model. The second part shows, for every obligation with hypotheses, states and operands that meet
them. -/

namespace Sys2Proof.Tests

open Sys2Proof.Machine

/-! ## Building states -/

/-- The slots of a stack written bottom first, the first at index k. -/
def slotsOf : Nat → List Word → Slots
  | _, [] => []
  | k, v :: rest => Cells.write (slotsOf (k + 1) rest) k v

/-- A running machine with this stack, code and memory. -/
def machine (stack : List Word) (code : List Byte) (mem : Memory := []) : State :=
  { State.reset with slots := slotsOf 0 stack, h := Fin.ofNat 257 stack.length, code := code, mem := mem }

/-- A running machine with h occupied slots, all 0. -/
def withHeight (h : Fin 257) (code : List Byte) : State := { State.reset with h := h, code := code }

/-- The same machine under the policy FaultIfWide. -/
def wide (s : State) : State := s.withConfig { s.config with addressPolicy := .faultIfWide }

def nextOf : Host.Outcome State Fault Refusal → Option State
  | .next s => some s
  | .fault _ => none
  | .refused _ => none

/-- The state one step later. -/
def after (s : State) : Option State := nextOf (step s)

/-- What one step leaves on the stack, in `ip` and in `status`. -/
def seen (s : State) : Option (List Word × Nat × Status) := (after s).map fun t => (t.occupied, t.ip, t.status)

/-- The status after one step. -/
def statusAfter (s : State) : Option Status := (after s).map State.status

/-- A configuration other than the default: opcode values 0xE5 down to 0xCC. -/
def otherConfig : Config :=
  { opcodes := #v[0xE5, 0xE4, 0xE3, 0xE2, 0xE1, 0xE0, 0xDF, 0xDE, 0xDD, 0xDC, 0xDB, 0xDA, 0xD9,
                  0xD8, 0xD7, 0xD6, 0xD5, 0xD4, 0xD3, 0xD2, 0xD1, 0xD0, 0xCF, 0xCE, 0xCD, 0xCC]
    dispatchMode := .indirect, addressPolicy := .faultIfWide }

/-- R79 forbids this one: ADD and SUB share a value. -/
def clashingConfig : Config := { defaultConfig with opcodes := defaultOpcodes.set 11 0x09 }

/-! ## Well-formedness refuses ill-formed terms -/

theorem test_wellFormed_config : defaultConfig.wellFormed = true ∧ otherConfig.wellFormed = true := by decide
theorem test_wellFormed_refuses_a_shared_opcode : clashingConfig.wellFormed = false := by decide
theorem test_wellFormed_refuses_a_defined_byte : (Instr.undefined 0x09).wellFormed defaultConfig = false := by decide
theorem test_wellFormed_undefined : (Instr.undefined 0x1A).wellFormed defaultConfig = true := by decide
theorem test_memory_form_refuses : Memory.wf [(3, 1), (3, 2)] = false ∧ Memory.wf [(4, 1), (3, 2)] = false ∧
    Memory.wf [(3, 0)] = false ∧ Memory.wf [(65536, 1)] = false ∧ Memory.wf [(3, 1), (65535, 2)] = true := by decide
theorem test_slots_form_refuses : Slots.wf [(256, 1)] = false ∧ Slots.wf [(0, 1), (255, 2)] = true := by decide
theorem test_write_removes_a_zero : Cells.write [(3, 1), (7, 2)] 3 0 = [(7, 2)] ∧
    Cells.write [(3, 1), (7, 2)] 5 9 = [(3, 1), (5, 9), (7, 2)] := by decide

/-! ## Decoding words written out from R71 and R79 -/

/-- What the default configuration decodes first. -/
def first (bytes : List Byte) : Option (Instr × Nat) :=
  match decode defaultConfig bytes with
  | .ok (i, rest) => some (i, rest.length)
  | .error _ => none

theorem test_decode_push_and_memory :
    first [0x01, 0x12, 0x34] = some (.pushImm 0x1234, 0) ∧
    first [0x02, 0xFF, 0xFE] = some (.loadMemImm 0xFFFE, 0) ∧
    first [0x03, 0x00, 0x03, 0x18] = some (.loadAddMemImm 3, 1) ∧
    first [0x04, 0x80, 0x00] = some (.storeMemImm 0x8000, 0) ∧
    first [0x05, 0x18] = some (.loadIndirect, 1) ∧
    first [0x06] = some (.storeIndirect, 0) := by decide
theorem test_decode_stack :
    first [0x07] = some (.dup, 0) ∧
    first [0x08, 0x00] = some (.discard, 1) := by decide
theorem test_decode_arithmetic :
    first [0x09] = some (.add, 0) ∧
    first [0x0A, 0x00, 0x08] = some (.addImm 8, 0) ∧
    first [0x0B] = some (.sub, 0) ∧
    first [0x0C] = some (.div, 0) ∧
    first [0x0D] = some (.mul, 0) := by decide
theorem test_decode_control :
    first [0x0E, 0x00, 0x0C] = some (.jump 12, 0) ∧
    first [0x0F, 0x12, 0x34] = some (.jumpIfTrue 4660, 0) ∧
    first [0x10, 0x00, 0x63] = some (.jumpIfFalse 99, 0) := by decide
theorem test_decode_comparison :
    first [0x11] = some (.equal, 0) ∧
    first [0x12] = some (.less, 0) ∧
    first [0x13] = some (.lessOrEqual, 0) ∧
    first [0x14] = some (.greater, 0) ∧
    first [0x15] = some (.greaterOrEqual, 0) ∧
    first [0x16, 0x03, 0xE8] = some (.greaterOrEqualImm 1000, 0) := by decide
theorem test_decode_result :
    first [0x17] = some (.popResult, 0) ∧
    first [0x18] = some (.done, 0) ∧
    first [0x19] = some (.print, 0) ∧
    first [0x00, 0x01] = some (.abort, 1) ∧
    first [0x1A, 0x00, 0x05] = some (.undefined 0x1A, 2) ∧
    first [0xFF] = some (.undefined 0xFF, 0) := by decide
theorem test_decode_refuses : decode defaultConfig [] = .error .noOpcodeByte ∧
    decode defaultConfig [0x01, 0x12] = .error (.immediateCutShort .pushImm) := ⟨rfl, rfl⟩
theorem test_decode_other_config : decode otherConfig [0xE4, 0x12, 0x34] = .ok (.pushImm 0x1234, []) ∧
    decode otherConfig [0x01] = .ok (.undefined 0x01, []) := ⟨rfl, rfl⟩
theorem test_dispatch_table : decodeIndirect defaultConfig 0x19 = some .print ∧ decodeIndirect defaultConfig 0x1A = none ∧
    decodeIndirect otherConfig 0xCC = some .print ∧ decodeIndirect otherConfig 0xCB = none := by decide

/-- R71 and opcode_table.json's numbering: the first byte is bits 7..0, the immediate's high byte bits 15..8. -/
theorem test_decodeTableWord : decodeTableWord 24 0xE80316 = some (.greaterOrEqualImm 1000) ∧
    decodeTableWord 8 0x0C = some .div ∧ decodeTableWord 8 0x01 = some (.pushImm 0) ∧
    decodeTableWord 8 0xFF = some (.undefined 0xFF) := by decide

/-- A placed instruction is the next one to run, from reset and from the middle of a program. -/
theorem test_withFetchWord : seen (State.reset.withFetchWord 24 0x050001) = some ([5], 3, .running) ∧
    seen ((machine [7] [0x18, 0x18, 0x18, 0x18]).withIp 2 |>.withFetchWord 8 0x07) = some ([7, 7], 3, .running) := by decide

/-! ## One step of each instruction -/

/-- R24: 256 occupied slots leave no room. -/
theorem test_full_stack : statusAfter (withHeight 256 [0x01, 0x00, 0x01, 0x18]) = some (.faulted .stackOverflow) ∧
    statusAfter (withHeight 256 [0x02, 0x00, 0x00, 0x18]) = some (.faulted .stackOverflow) ∧
    statusAfter (withHeight 256 [0x07, 0x18]) = some (.faulted .stackOverflow) := by decide

/-- V1, V2. -/
theorem test_pushImm : seen (machine [] [0x01, 0x00, 0x05, 0x18]) = some ([5], 3, .running) ∧
    seen (machine [] [0x01, 0xFF, 0xFF, 0x18]) = some ([65535], 3, .running) := by decide
/-- V4: the fault is at the second immediate byte. -/
theorem test_pushImm_cut_short : statusAfter (machine [] [0x01, 0x00]) = some (.faulted .fetchOutOfBounds) := by decide
/-- V7, V8. -/
theorem test_loadMemImm : seen (machine [] [0x02, 0x12, 0x34, 0x18]) = some ([0], 3, .running) ∧
    seen (machine [] [0x02, 0xFF, 0xFF, 0x18] [(65535, 9)]) = some ([9], 3, .running) := by decide
/-- V10, V11. -/
theorem test_loadAddMemImm : seen (machine [0xFFFFFFFFFFFFFFFF] [0x03, 0x00, 0x03, 0x18] [(3, 2)]) = some ([1], 3, .running) ∧
    statusAfter (machine [] [0x03, 0x00, 0x03, 0x18]) = some (.faulted .stackUnderflow) := by decide
/-- V13, V14. -/
theorem test_storeMemImm : (after (machine [1, 2] [0x04, 0xFF, 0xFF, 0x18])).map (fun t => (t.occupied, t.mem)) = some ([1], [(65535, 2)]) ∧
    statusAfter (machine [] [0x04, 0x00, 0x00, 0x18]) = some (.faulted .stackUnderflow) := by decide
/-- V15, V16, V17, V18. -/
theorem test_loadIndirect : seen (machine [7] [0x05, 0x18] [(7, 1234)]) = some ([1234], 1, .running) ∧
    seen (machine [65543] [0x05, 0x18] [(7, 1234)]) = some ([1234], 1, .running) ∧
    seen (machine [0xFFFFFFFFFFFFFFFF] [0x05, 0x18] [(65535, 5)]) = some ([5], 1, .running) ∧
    statusAfter (machine [] [0x05, 0x18]) = some (.faulted .stackUnderflow) := by decide
/-- V16 under FaultIfWide. -/
theorem test_loadIndirect_wide : statusAfter (wide (machine [65543] [0x05, 0x18] [(7, 1234)])) = some (.faulted .addressOutOfRange) := by decide
/-- V19, V20, V22, V21. -/
theorem test_storeIndirect : (after (machine [7, 1234] [0x06, 0x18])).map (fun t => (t.occupied, t.mem)) = some ([], [(7, 1234)]) ∧
    (after (machine [5, 5] [0x06, 0x18])).map State.mem = some [(5, 5)] ∧
    (after (machine [65539, 9] [0x06, 0x18])).map State.mem = some [(3, 9)] ∧
    statusAfter (machine [1234] [0x06, 0x18]) = some (.faulted .stackUnderflow) := by decide
/-- V22 under FaultIfWide. -/
theorem test_storeIndirect_wide : statusAfter (wide (machine [65539, 9] [0x06, 0x18])) = some (.faulted .addressOutOfRange) := by decide
/-- V23, V24. -/
theorem test_dup : seen (machine [5] [0x07, 0x18]) = some ([5, 5], 1, .running) ∧ statusAfter (machine [] [0x07, 0x18]) = some (.faulted .stackUnderflow) := by decide
/-- V26. -/
theorem test_dup_to_full : (after (withHeight 255 [0x07, 0x18])).map (fun t => (t.h.val, t.status)) = some (256, .running) := by decide
/-- V27, V28. -/
theorem test_discard : seen (machine [5, 9] [0x08, 0x18]) = some ([5], 1, .running) ∧ statusAfter (machine [] [0x08, 0x18]) = some (.faulted .stackUnderflow) := by decide
/-- V29, V30, V31. -/
theorem test_add : seen (machine [3, 4] [0x09, 0x18]) = some ([7], 1, .running) ∧ seen (machine [0xFFFFFFFFFFFFFFFF, 1] [0x09, 0x18]) = some ([0], 1, .running) ∧
    statusAfter (machine [4] [0x09, 0x18]) = some (.faulted .stackUnderflow) := by decide
/-- V32, V33, V34. -/
theorem test_addImm : seen (machine [65535] [0x0A, 0x00, 0x08, 0x18]) = some ([65543], 3, .running) ∧
    seen (machine [0xFFFFFFFFFFFFFFFF] [0x0A, 0x00, 0x02, 0x18]) = some ([1], 3, .running) ∧
    statusAfter (machine [] [0x0A, 0x00, 0x02, 0x18]) = some (.faulted .stackUnderflow) := by decide
/-- V35, V36, V36a. -/
theorem test_sub : seen (machine [10, 3] [0x0B, 0x18]) = some ([7], 1, .running) ∧
    seen (machine [3, 10] [0x0B, 0x18]) = some ([18446744073709551609], 1, .running) ∧
    seen (machine [0, 1] [0x0B, 0x18]) = some ([0xFFFFFFFFFFFFFFFF], 1, .running) := by decide
/-- V37, V38, V39, V40. -/
theorem test_div_by_zero : seen (machine [5, 0] [0x0C, 0x18]) = some ([5], 1, .halted .divisionByZero) ∧
    seen (machine [0] [0x0C, 0x18]) = some ([], 1, .halted .divisionByZero) ∧
    statusAfter (machine [3] [0x0C, 0x18]) = some (.faulted .stackUnderflow) ∧ statusAfter (machine [] [0x0C, 0x18]) = some (.faulted .stackUnderflow) := by decide
/-- V41, V42, V43. -/
theorem test_div : seen (machine [7, 2] [0x0C, 0x18]) = some ([3], 1, .running) ∧ seen (machine [2, 7] [0x0C, 0x18]) = some ([0], 1, .running) ∧
    seen (machine [0xFFFFFFFFFFFFFFFF, 0xFFFFFFFFFFFFFFFF] [0x0C, 0x18]) = some ([1], 1, .running) := by decide
/-- V44, V45, V45a, V45b. -/
theorem test_mul : seen (machine [6, 7] [0x0D, 0x18]) = some ([42], 1, .running) ∧
    seen (machine [4294967296, 4294967296] [0x0D, 0x18]) = some ([0], 1, .running) ∧
    seen (machine [0xFFFFFFFFFFFFFFFF, 0xFFFFFFFFFFFFFFFF] [0x0D, 0x18]) = some ([1], 1, .running) ∧
    seen (machine [0xFFFFFFFFFFFFFFFF, 2] [0x0D, 0x18]) = some ([18446744073709551614], 1, .running) := by decide
/-- V70, V71, V72. -/
theorem test_jump : seen (machine [4] [0x0E, 0x00, 0x0C]) = some ([4], 12, .running) ∧ seen (machine [4] [0x0E, 0x00, 0x00]) = some ([4], 0, .running) ∧
    statusAfter (machine [] [0x0E, 0x00]) = some (.faulted .fetchOutOfBounds) := by decide
/-- V73, V74, V74a. -/
theorem test_jumpIfTrue : seen (machine [2] [0x0F, 0x00, 0x09]) = some ([], 9, .running) ∧
    seen (machine [0] [0x0F, 0x00, 0x09, 0x18]) = some ([], 3, .running) ∧
    seen (machine [0xFFFFFFFFFFFFFFFF] [0x0F, 0x12, 0x34]) = some ([], 4660, .running) := by decide
/-- V75, V76, V76a. -/
theorem test_jumpIfFalse : seen (machine [0] [0x10, 0x00, 0x09]) = some ([], 9, .running) ∧
    seen (machine [1] [0x10, 0x00, 0x09, 0x18]) = some ([], 3, .running) ∧
    statusAfter (machine [] [0x10, 0x00, 0x09, 0x18]) = some (.faulted .stackUnderflow) := by decide
/-- V46, V47. -/
theorem test_equal : seen (machine [4, 4] [0x11, 0x18]) = some ([1], 1, .running) ∧
    seen (machine [4, 5] [0x11, 0x18]) = some ([0], 1, .running) := by decide
/-- V48 to V51. -/
theorem test_less : seen (machine [3, 5] [0x12, 0x18]) = some ([1], 1, .running) ∧
    seen (machine [5, 3] [0x12, 0x18]) = some ([0], 1, .running) ∧
    seen (machine [0xFFFFFFFFFFFFFFFF, 0] [0x12, 0x18]) = some ([0], 1, .running) ∧
    seen (machine [5, 5] [0x12, 0x18]) = some ([0], 1, .running) := by decide
/-- V52, V53. -/
theorem test_lessOrEqual : seen (machine [5, 5] [0x13, 0x18]) = some ([1], 1, .running) ∧
    seen (machine [6, 5] [0x13, 0x18]) = some ([0], 1, .running) := by decide
/-- V54 to V56. -/
theorem test_greater : seen (machine [5, 3] [0x14, 0x18]) = some ([1], 1, .running) ∧
    seen (machine [3, 3] [0x14, 0x18]) = some ([0], 1, .running) ∧
    seen (machine [0xFFFFFFFFFFFFFFFF, 0] [0x14, 0x18]) = some ([1], 1, .running) := by decide
/-- V57 to V59. -/
theorem test_greaterOrEqual : seen (machine [3, 5] [0x15, 0x18]) = some ([0], 1, .running) ∧
    seen (machine [5, 5] [0x15, 0x18]) = some ([1], 1, .running) ∧
    statusAfter (machine [1] [0x15, 0x18]) = some (.faulted .stackUnderflow) := by decide
/-- V60 to V63. -/
theorem test_greaterOrEqualImm : seen (machine [1234] [0x16, 0x03, 0xE8, 0x18]) = some ([1], 3, .running) ∧
    seen (machine [999] [0x16, 0x03, 0xE8, 0x18]) = some ([0], 3, .running) ∧
    seen (machine [0] [0x16, 0x00, 0x00, 0x18]) = some ([1], 3, .running) ∧
    seen (machine [65536] [0x16, 0xFF, 0xFF, 0x18]) = some ([1], 3, .running) := by decide
/-- V65, V66. -/
theorem test_popResult : (after (machine [7] [0x17, 0x18])).map (fun t => (t.occupied, t.res)) = some ([], 7) ∧
    (after (machine [] [0x17, 0x18])).map (fun t => (t.status, t.res)) = some (.faulted .stackUnderflow, 0) := by decide
/-- V67, V69. -/
theorem test_print : (after (machine [1234] [0x19, 0x18])).map (fun t => (t.out, t.outputText)) =
      some ([1234], [0x31, 0x32, 0x33, 0x34, 0x0A]) ∧
    (after (machine [] [0x19, 0x18])).map (fun t => (t.status, t.out)) = some (.faulted .stackUnderflow, []) := by decide
/-- V68; R172: 0 renders as the digit 0. -/
theorem test_print_text : renderLine 0xFFFFFFFFFFFFFFFF = [0x31, 0x38, 0x34, 0x34, 0x36, 0x37, 0x34, 0x34, 0x30, 0x37, 0x33, 0x37,
      0x30, 0x39, 0x35, 0x35, 0x31, 0x36, 0x31, 0x35, 0x0A] ∧ renderLine 0 = [0x30, 0x0A] := by decide
/-- V77. -/
theorem test_done : seen (machine [1, 2, 3] [0x18]) = some ([1, 2, 3], 1, .halted .success) := by decide
/-- V78, V86. -/
theorem test_abort : seen (machine [1] [0x00]) = some ([1], 1, .halted .endOfStream) ∧
    seen ((machine [] [0x0E, 0x00, 0x01]).withIp 1) = some ([], 2, .halted .endOfStream) := by decide
/-- V80, V81. -/
theorem test_undefined : seen (machine [1] [0x1A]) = some ([1], 1, .halted .unknownOpcode) ∧
    seen (machine [1] [0xFF, 0x01, 0x00, 0x05]) = some ([1], 1, .halted .unknownOpcode) := by decide
/-- V82. -/
theorem test_empty_code : statusAfter (machine [] []) = some (.faulted .fetchOutOfBounds) := by decide

/-! ## The interface -/

/-- R100. -/
theorem test_outcome_codes : RunOutcome.success.code = 0 ∧ RunOutcome.divisionByZero.code = 1 ∧
    RunOutcome.unknownOpcode.code = 2 ∧ RunOutcome.endOfStream.code = 3 := by decide

/-- What a caller sees of a launch: its outcome and `res`. -/
def answer : Option LaunchView → Option (RunOutcome × Word)
  | some (.returned o s) => some (o, s.res)
  | some (.faulted _ _) | some (.stillRunning _) | none => none

/-- E2 and E1 of 95_test_vectors.md. -/
theorem test_interpret : answer (interpret 9 [0x01, 0x00, 0x03, 0x01, 0x00, 0x04, 0x09, 0x17, 0x18] State.powerOn) =
      some (.success, 7) ∧
    answer (interpret 9 [0x01, 0x00, 0x05, 0x01, 0x00, 0x00, 0x0C, 0x17, 0x18] State.powerOn) =
      some (.divisionByZero, 0) := by decide

/-- R42, R101, R104: before the first launch the result is 0; while a launch runs there is no such call. -/
theorem test_getResult : getResult State.powerOn = some 0 ∧ getResult State.reset = none ∧ launch [0x18] State.reset = none := by
  decide

/-- R92: no step before a launch, after an outcome or after a fault. -/
theorem test_no_step : nextOf (step State.powerOn) = none ∧
    nextOf (step ((machine [] [0x18]).withStatus (.halted .success))) = none ∧
    nextOf (step ((machine [] [0x18]).withStatus (.faulted .stackOverflow))) = none := by decide

/-! ## Hypotheses that are met

One theorem for each obligation with hypotheses, at boundary values. `rest` is the part of the stack below the operands. -/

/-- A state meets what a step of an F1 opcode asks for. -/
abbrev MeetsF1 (m : Mnemonic) (s : State) : Prop :=
  s.status = .running ∧ s.config.wellFormed = true ∧ s.code[s.ip]? = some (s.config.opcodeValue m)

/-- A state meets what a step of an F3 opcode asks for, with the immediate in the last bytes of the buffer. -/
abbrev MeetsF3 (m : Mnemonic) (imm : Imm) (s : State) : Prop :=
  MeetsF1 m s ∧ s.code[s.ip + 1]? = some (immHigh imm) ∧ s.code[s.ip + 2]? = some (immLow imm) ∧ s.code.length = s.ip + 3

/-- A state meets what the fetch fault of an F3 opcode asks for, one byte missing. -/
abbrev MeetsCut (m : Mnemonic) (s : State) : Prop := MeetsF1 m s ∧ s.code.length = s.ip + 2

/-- A running machine about to execute the opcode m, its byte being the last of the buffer. -/
def at1 (m : Mnemonic) : State := machine [] [defaultConfig.opcodeValue m]

/-- A running machine about to execute m with this immediate, at offset 1. -/
def at3 (m : Mnemonic) (imm : Imm) : State :=
  (machine [] [0x00, defaultConfig.opcodeValue m, immHigh imm, immLow imm]).withIp 1

/-- The same with the immediate's low byte missing. -/
def cut (m : Mnemonic) : State := machine [] [defaultConfig.opcodeValue m, 0x00]

theorem witness_DecodingAnEncodedInstructionGivesItBack :
    defaultConfig.wellFormed = true ∧ (Instr.jump 0xFFFF).wellFormed defaultConfig = true ∧
    otherConfig.wellFormed = true ∧ (Instr.undefined 0x00).wellFormed otherConfig = true := by decide
theorem witness_EncodingADecodedInstructionGivesItsBytes :
    defaultConfig.wellFormed = true ∧
    decode defaultConfig [0x0E, 0xFF, 0xFF, 0x07] = .ok (.jump 0xFFFF, [0x07]) ∧
    decode defaultConfig [0xFF] = .ok (.undefined 0xFF, []) := ⟨by decide, rfl, rfl⟩
theorem witness_DispatchTableHoldsEachHandlerOrTheFallback :
    defaultConfig.wellFormed = true ∧ defaultConfig.opcodeValue .print = 0x19 ∧
    (∀ m, defaultConfig.opcodeValue m ≠ 0x1A) ∧ (∃ t, step (machine [5] [0x07]) = .next t) ∧
    ((machine [5] [0x1A]).status = .running ∧ (machine [5] [0x1A]).code[0]? = some 0x1A) ∧
    (dispatchTable defaultConfig)[(0x1A : Byte).toNat]? = some none := ⟨by decide, rfl, fun m => by cases m <;> decide, ⟨_, rfl⟩, by decide, by decide⟩
theorem witness_DirectAndIndirectDispatchRunIdentically :
    (machine [5] [0x07, 0x18]).config.wellFormed = true ∧ (State.reset.withConfig otherConfig).config.wellFormed = true := by decide
theorem witness_DecoderReadsBigEndianAndAdvances :
    let s := (machine [] [0x18, 0x12, 0x34]).withIp 1
    (s.code[s.ip]? = some 0x12 ∧ s.code[s.ip + 1]? = some 0x34) ∧
    ((machine [] [0x18]).withIp 1).code.length ≤ 1 ∧ (machine [] [0x18]).code.length ≤ (machine [] [0x18]).ip + 1 := by decide
theorem witness_StepRunsTheDecodedInstruction :
    let s := (machine [] [0x18, 0x0E, 0x12, 0x34]).withIp 1
    s.status = .running ∧ decode s.config (s.code.drop s.ip) = .ok (.jump 0x1234, []) := ⟨rfl, rfl⟩
theorem witness_OpcodeFetchPastTheBufferFaults :
    let s := (machine [] [0x18]).withIp 1
    s.status = .running ∧ s.code.length ≤ s.ip := by decide
theorem witness_ImmediateFetchFaultsComeBeforeStackFaults :
    Mnemonic.pushImm.hasImm = true ∧ MeetsCut .pushImm (withHeight 256 [0x01, 0x00]) ∧ (withHeight 256 [0x01, 0x00]).h.val = 256 ∧
    MeetsCut .jumpIfTrue (cut .jumpIfTrue) ∧ (cut .jumpIfTrue).h.val = 0 := by decide
theorem witness_NoStepOutsideRunning :
    (machine [5] [0x07]).status = .running ∧ State.powerOn.status ≠ .running ∧
    ((machine [5] [0x07]).withStatus (.faulted .stackOverflow)).status ≠ .running := by decide
theorem witness_LaunchResetsEveryPieceOfState :
    ((machine [5] [0x07] [(3, 4)]).withStatus (.halted .success)).status ≠ .running := by decide
theorem witness_LaunchForgetsEveryEarlierLaunch :
    let s := State.powerOn
    let s' := (machine [5] [0x07] [(3, 4)]).withStatus (.halted .success)
    s.status ≠ .running ∧ s'.status ≠ .running ∧ s'.config = s.config ∧ s ≠ s' := by decide
theorem witness_InterpretAnswerIsStableUnderMoreSteps :
    1 ≤ 2 ∧ ∃ t, interpret 1 [0x18] State.powerOn = some (.returned .success t) := ⟨by decide, _, rfl⟩
theorem witness_SuccessExactlyWhenDoneIsReached :
    (∃ s₀, launch [0x18] State.powerOn = some s₀) ∧
    (∃ n t, interpret n [0x18] State.powerOn = some (.returned .success t)) ∧
    ∃ s₀ u v, launch [0x18] State.powerOn = some s₀ ∧ StepsTo 0 s₀ u ∧ nextInstr u = some (.done, v) := ⟨⟨_, rfl⟩, ⟨1, _, rfl⟩, _, _, _, rfl, rfl, rfl⟩
/-- The program PUSH_IMM 65535, ADD_IMM 1, LOAD_INDIRECT: under FaultIfWide it raises AddressOutOfRange. -/
def widePush : List Byte := [0x01, 0xFF, 0xFF, 0x0A, 0x00, 0x01, 0x05]

def wideConfig : Config := { defaultConfig with addressPolicy := .faultIfWide }

/-- It breaks neither the stack's nor the buffer's bounds, so it is well-formed (R247). -/
theorem widePush_is_wellFormed : WellFormedProgram wideConfig widePush := by
  intro n t hs hr
  match n, hs with
  | 0, hs =>
    cases stepsTo_zero.mp hs
    exact ⟨_, _, rfl, .inl (by decide), by decide⟩
  | 1, hs =>
    obtain ⟨u, hu, hs⟩ := stepsTo_succ.mp hs
    cases stepsTo_zero.mp hs; cases hu
    exact ⟨_, _, rfl, .inl (by decide), by decide⟩
  | 2, hs =>
    obtain ⟨u, hu, hs⟩ := stepsTo_succ.mp hs; cases hu
    obtain ⟨u, hu, hs⟩ := stepsTo_succ.mp hs
    cases stepsTo_zero.mp hs; cases hu
    exact ⟨_, _, rfl, .inl (by decide), by decide⟩
  | n + 3, hs =>
    obtain ⟨u, hu, hs⟩ := stepsTo_succ.mp hs; cases hu
    obtain ⟨u, hu, hs⟩ := stepsTo_succ.mp hs; cases hu
    obtain ⟨u, hu, hs⟩ := stepsTo_succ.mp hs; cases hu
    match n, hs with
    | 0, hs => cases stepsTo_zero.mp hs; cases hr
    | n + 1, hs => obtain ⟨u, hu, _⟩ := stepsTo_succ.mp hs; cases hu

/-- JUMP 0 at offset 0 is in its first state after every number of steps. -/
theorem jumpLoop_stays {n : Nat} {t : State} (h : StepsTo n (State.launched defaultConfig [0x0E, 0x00, 0x00]) t) :
    t = State.launched defaultConfig [0x0E, 0x00, 0x00] := by
  induction n with
  | zero => exact (stepsTo_zero.mp h).symm
  | succ n ih =>
    obtain ⟨u, hu, h⟩ := stepsTo_succ.mp h
    cases hu
    exact ih h

theorem jumpLoop_is_wellFormed : WellFormedProgram defaultConfig [0x0E, 0x00, 0x00] := fun n t h _ => by
  rw [jumpLoop_stays h]
  exact ⟨_, _, rfl, .inl (by decide), by decide⟩

theorem witness_WellFormedProgramsStepUntilAnOutcome :
    ∃ s₀ t, launch widePush (wide State.powerOn) = some s₀ ∧ WellFormedProgram (wide State.powerOn).config widePush ∧
    StepsTo 3 s₀ t ∧ t.status = .faulted .addressOutOfRange := ⟨_, _, rfl, widePush_is_wellFormed, rfl, by decide⟩
theorem witness_BrokenBoundsFaultAndMissingTerminationHangs :
    (∃ s₀, launch [0x18] State.powerOn = some s₀) ∧
    ((machine [0] [0x0C]).status = .running ∧ (machine [0] [0x0C]).KeepsBounds) ∧
    ((withHeight 255 [0x07]).status = .running ∧ (withHeight 255 [0x07]).KeepsBounds) ∧
    ((withHeight 256 [0x07]).status = .running ∧ statusAfter (withHeight 256 [0x07]) = some (.faulted .stackOverflow)) ∧
    statusAfter (machine [3] [0x0C]) = some (.faulted .stackUnderflow) ∧
    WellFormedProgram defaultConfig [0x0E, 0x00, 0x00] ∧
    (∀ n t, StepsTo n (State.launched defaultConfig [0x0E, 0x00, 0x00]) t → t.status ≠ .faulted .addressOutOfRange) ∧
    (∀ n t i u, StepsTo n (State.launched defaultConfig [0x0E, 0x00, 0x00]) t → nextInstr t = some (i, u) →
      i ≠ .done ∧ i ≠ .abort ∧ (∀ b, i ≠ .undefined b) ∧ ¬(i = .div ∧ ∃ below, u.occupied = below ++ [0])) := by
  refine ⟨⟨_, rfl⟩, ⟨rfl, _, _, rfl, .inr ⟨rfl, [], by decide⟩, by decide⟩, ⟨rfl, _, _, rfl, .inl (by decide), by decide⟩, ⟨rfl, by decide⟩,
    by decide, jumpLoop_is_wellFormed, fun n t h => ?_, fun n t i u h hi => ?_⟩
  · rw [jumpLoop_stays h]; decide
  · rw [jumpLoop_stays h] at hi
    cases hi
    exact ⟨by decide, by decide, nofun, nofun⟩
theorem witness_ResultIsTheLastPopped :
    ∃ s₀ t, launch [0x01, 0x00, 0x07, 0x17] State.powerOn = some s₀ ∧ StepsTo 2 s₀ t ∧ t.res = 7 := ⟨_, _, rfl, rfl, by decide⟩
theorem witness_OutputIsThePrintedValuesInProgramOrder :
    ∃ s₀ t, launch [0x01, 0x00, 0x07, 0x19] State.powerOn = some s₀ ∧ StepsTo 2 s₀ t ∧ t.out = [7] := ⟨_, _, rfl, rfl, by decide⟩
theorem witness_EveryStepKeepsTheInvariant :
    (∃ t, (machine [65535, 9] [0x06] [(3, 9)]).Inv ∧ step (machine [65535, 9] [0x06] [(3, 9)]) = .next t) ∧
    (∃ t, (machine [] [0x18] |>.withIp 65535).Inv ∧ step (machine [] [0x18] |>.withIp 65535) = .next t) ∧
    ∃ t, State.powerOn.Inv ∧ launch [0x18] State.powerOn = some t := by
  refine ⟨⟨_, ⟨?_, ?_, ?_⟩, rfl⟩, ⟨_, ⟨?_, ?_, ?_⟩, rfl⟩, _, ⟨?_, ?_, ?_⟩, rfl⟩ <;> decide
theorem witness_ConfigurationAndCodeAreConstant :
    (∃ t, step (machine [5] [0x08]) = .next t) ∧ ∃ t, launch [0x18] State.powerOn = some t := ⟨⟨_, rfl⟩, _, rfl⟩
theorem witness_InstructionPointerChangesInFourWays :
    let s := (machine [0] [0x18, 0x12, 0x34]).withIp 1
    (∃ t, fetchOpcode s = .go 0x12 t) ∧ (∃ t, fetchImm s = .go 0x1234 t) ∧ (∃ t, peekImm s = .go 0x1234 t) ∧
    (∃ t, exec (.jumpIfFalse 9) s = .next t ∧ t.ip = 9) ∧ ∃ t, exec (.jumpIfTrue 9) s = .next t ∧ t.ip = 1 := ⟨⟨_, rfl⟩, ⟨_, rfl⟩, ⟨_, rfl⟩, ⟨_, rfl, by decide⟩, _, rfl, by decide⟩
theorem witness_OnlyPopResultTouchesTheResultRegister :
    Instr.print ≠ .popResult ∧ (machine [5] []).h.val ≠ 0 ∧ (machine [] []).h.val = 0 := by decide
theorem witness_OutputIsAppendOnlyAndNeverReadBack :
    (∃ t, exec .print (machine [5] []) = .next t ∧ t.out = [5]) ∧ ∃ t, exec .dup (machine [5] []) = .next t := ⟨⟨_, rfl, by decide⟩, _, rfl⟩
theorem witness_FiveEventsEndALaunch :
    let run : State → Status → Prop := fun s o => s.status = .running ∧ ∃ t, step s = .next t ∧ t.status = o
    run (machine [] [0x18]) (.halted .success) ∧ run (machine [5, 0] [0x0C]) (.halted .divisionByZero) ∧
    run (machine [] [0xFF]) (.halted .unknownOpcode) ∧ run (machine [] [0x00]) (.halted .endOfStream) ∧
    run (machine [] []) (.faulted .fetchOutOfBounds) ∧ run (machine [5] [0x07]) .running := by
  refine ⟨?_, ?_, ?_, ?_, ?_, ?_⟩ <;> exact ⟨rfl, _, rfl, rfl⟩
theorem witness_InstructionsFaultExactlyWhenTheirRulesSay :
    (withHeight 256 []).status = .running ∧ (withHeight 256 []).h.val = 256 ∧ pushesOntoFull .dup = true ∧
    (machine [3] []).h.val < slotsNeeded .div ∧ (machine [0] []).occupied = [] ++ [0] ∧
    (wide (machine [65536, 9] [])).config.addressPolicy = .faultIfWide ∧
    addressOperand .storeIndirect (wide (machine [65536, 9] [])) = some 65536 := by decide
/-- The stack of a machine with n + 1 zeros. -/
theorem withHeight_occupied (n : Nat) (hn : n + 1 < 257) (code : List Byte) :
    (withHeight ⟨n + 1, hn⟩ code).occupied = List.replicate n 0 ++ [0] := by
  show (List.range (n + 1)).map (fun _ => (0 : Word)) = _
  rw [List.map_const', List.length_range, List.replicate_succ']

/-- Two machines that differ in the slot just above the top (R29). -/
def staleSlot (v : Word) (code : List Byte) (st : Status) : State :=
  { machine [5, 6] code with slots := [(0, 5), (1, 6), (2, v)], status := st }

theorem staleSlot_same (v w : Word) (code : List Byte) (st : Status) :
    SameButUnoccupied (staleSlot v code st) (staleSlot w code st) := by
  refine ⟨rfl, rfl, fun k hk => ?_, rfl, rfl, rfl, rfl, rfl, rfl⟩
  have hk : k < 2 := hk
  obtain rfl | rfl : k = 0 ∨ k = 1 := by omega
  · rfl
  · rfl

theorem witness_UnoccupiedSlotsAreNeverObserved :
    SameButUnoccupied (staleSlot 8 [0x07] .running) (staleSlot 9 [0x07] .running) ∧
    staleSlot 8 [0x07] .running ≠ staleSlot 9 [0x07] .running ∧
    (∃ t, step (staleSlot 8 [0x07] .running) = .next t) ∧
    step (staleSlot 8 [] (.faulted .stackOverflow)) = .fault .stackOverflow ∧
    step (staleSlot 8 [] (.halted .success)) = .refused (.launchEnded .success) := ⟨staleSlot_same 8 9 _ _, by decide, ⟨_, rfl⟩, rfl, rfl⟩
theorem witness_InstructionsStoreOnlyWhereTheirRulesSay :
    (∃ t, exec (.storeMemImm 0xFFFF) (machine [9] []) = .next t) ∧ storeOf (.storeMemImm 0xFFFF) (machine [9] []) = some (0xFFFF, 9) ∧
    storeOf .storeIndirect (machine [65536, 9] []) = some (0, 9) ∧ storeOf .storeIndirect (wide (machine [65536, 9] [])) = none ∧
    storeOf .print (machine [9] []) = none := ⟨⟨_, rfl⟩, by decide, by decide, by decide, by decide⟩
theorem witness_PoppedAddressesFollowThePolicy :
    (machine [] []).config.addressPolicy = .truncate16 ∧ (wide (machine [] [])).config.addressPolicy = .faultIfWide ∧
    (65535 : Word).toNat < 65536 ∧ 65536 ≤ (65536 : Word).toNat := by decide
theorem witness_PushImmPushesItsImmediate :
    MeetsF3 .pushImm 0x12FE (at3 .pushImm 0x12FE) ∧ MeetsCut .pushImm (cut .pushImm) ∧
    (withHeight 255 []).h.val < 256 ∧
    (withHeight 256 []).h.val = 256 := by decide
theorem witness_LoadMemImmPushesTheCell :
    MeetsF3 .loadMemImm 0xFFFF (at3 .loadMemImm 0xFFFF) ∧ MeetsCut .loadMemImm (cut .loadMemImm) ∧
    (withHeight 255 []).h.val < 256 ∧
    (withHeight 256 []).h.val = 256 := by decide
theorem witness_LoadAddMemImmAddsTheCellIntoTheTop :
    MeetsF3 .loadAddMemImm 0xFFFF (at3 .loadAddMemImm 0xFFFF) ∧ MeetsCut .loadAddMemImm (cut .loadAddMemImm) ∧
    (machine [9] []).occupied = [] ++ [9] ∧
    (machine [] []).h.val = 0 := by decide
theorem witness_StoreMemImmPopsIntoTheCell :
    MeetsF3 .storeMemImm 0xFFFF (at3 .storeMemImm 0xFFFF) ∧ MeetsCut .storeMemImm (cut .storeMemImm) ∧
    (machine [9] []).occupied = [] ++ [9] ∧
    (machine [] []).h.val = 0 := by decide
theorem witness_LoadIndirectReplacesTheTopWithTheCell :
    MeetsF1 .loadIndirect (at1 .loadIndirect) ∧
    (machine [65536] []).occupied = [] ++ [65536] ∧ (machine [65536] []).config.addressPolicy = .truncate16 ∧
    (wide (machine [65535] [])).occupied = [] ++ [65535] ∧ (65535 : Word).toNat < 65536 ∧
    (wide (machine [65536] [])).occupied = [] ++ [65536] ∧ (wide (machine [65536] [])).config.addressPolicy = .faultIfWide ∧ 65536 ≤ (65536 : Word).toNat ∧
    (machine [] []).h.val = 0 := by decide
theorem witness_StoreIndirectStoresAtThePoppedAddress :
    MeetsF1 .storeIndirect (at1 .storeIndirect) ∧
    (machine [65536, 9] []).occupied = [] ++ [65536, 9] ∧ (machine [65536, 9] []).config.addressPolicy = .truncate16 ∧
    (wide (machine [65535, 9] [])).occupied = [] ++ [65535, 9] ∧ (65535 : Word).toNat < 65536 ∧
    (wide (machine [65536, 9] [])).occupied = [] ++ [65536, 9] ∧ (wide (machine [65536, 9] [])).config.addressPolicy = .faultIfWide ∧ 65536 ≤ (65536 : Word).toNat ∧
    (machine [9] []).h.val < 2 := by decide
theorem witness_DupPushesACopyOfTheTop :
    MeetsF1 .dup (at1 .dup) ∧
    (withHeight 255 []).occupied = List.replicate 254 0 ++ [0] ∧
    (withHeight 255 []).h.val < 256 ∧
    (machine [] []).h.val = 0 ∧
    (withHeight 256 []).h.val = 256 := ⟨by decide, withHeight_occupied 254 (by decide) [], by decide⟩
theorem witness_DiscardDropsTheTop :
    MeetsF1 .discard (at1 .discard) ∧
    (withHeight 256 []).occupied = List.replicate 255 0 ++ [0] ∧
    (machine [9] []).occupied = [] ++ [9] ∧
    (machine [] []).h.val = 0 := ⟨by decide, withHeight_occupied 255 (by decide) [], by decide⟩
theorem witness_AddSubMulWorkModuloTwoToTheSixtyFour :
    MeetsF1 .add (at1 .add) ∧ MeetsF1 .sub (at1 .sub) ∧ MeetsF1 .mul (at1 .mul) ∧
    (machine [5, 9] []).occupied = [] ++ [5, 9] ∧
    (machine [4, 5, 9] []).occupied = [4] ++ [5, 9] ∧
    (machine [9] []).h.val < 2 := by decide
theorem witness_AddImmAddsIntoTheTop :
    MeetsF3 .addImm 0xFFFF (at3 .addImm 0xFFFF) ∧ MeetsCut .addImm (cut .addImm) ∧
    (machine [9] []).occupied = [] ++ [9] ∧
    (machine [] []).h.val = 0 := by decide
theorem witness_DivHaltsExactlyOnAZeroDivisor :
    (machine [0] []).status = .running ∧
    (machine [0] []).occupied = [] ++ [0] ∧
    (machine [5, 1] []).occupied = [5] ++ [1] := by decide
theorem witness_DivLeavesTheFloorQuotient :
    MeetsF1 .div (at1 .div) ∧
    (machine [5, 9] []).occupied = [] ++ [5, 9] ∧
    (9 : Word) ≠ 0 ∧
    (machine [9] []).occupied = [9] ∧
    (machine [] []).h.val = 0 := by decide
theorem witness_JumpSetsIpToItsTarget :
    MeetsF3 .jump 0xFFFF (at3 .jump 0xFFFF) ∧ MeetsCut .jump (cut .jump) := by decide
theorem witness_JumpIfTrueJumpsOnANonzeroCondition :
    MeetsF3 .jumpIfTrue 0xFFFF (at3 .jumpIfTrue 0xFFFF) ∧ MeetsCut .jumpIfTrue (cut .jumpIfTrue) ∧
    (machine [9] []).occupied = [] ++ [9] ∧
    (machine [0] []).occupied = [] ++ [0] ∧
    (machine [] []).h.val = 0 := by decide
theorem witness_JumpIfFalseJumpsOnAZeroCondition :
    MeetsF3 .jumpIfFalse 0xFFFF (at3 .jumpIfFalse 0xFFFF) ∧ MeetsCut .jumpIfFalse (cut .jumpIfFalse) ∧
    (machine [9] []).occupied = [] ++ [9] ∧
    (machine [0] []).occupied = [] ++ [0] ∧
    (machine [] []).h.val = 0 := by decide
theorem witness_JumpToItselfNeverEnds :
    let s := (machine [] [0x18, 0x0E, 0x00, 0x01]).withIp 1
    s.status = .running ∧ s.ip = (1 : Imm).toNat ∧ decode s.config (s.code.drop s.ip) = .ok (.jump 1, []) := ⟨rfl, rfl, rfl⟩
theorem witness_StackComparisonsLeaveZeroOrOne :
    MeetsF1 .equal (at1 .equal) ∧ MeetsF1 .less (at1 .less) ∧
    MeetsF1 .lessOrEqual (at1 .lessOrEqual) ∧ MeetsF1 .greater (at1 .greater) ∧ MeetsF1 .greaterOrEqual (at1 .greaterOrEqual) ∧
    (machine [5, 5] []).occupied = [] ++ [5, 5] ∧
    (machine [4, 5, 9] []).occupied = [4] ++ [5, 9] ∧
    (machine [9] []).h.val < 2 := by decide
theorem witness_GreaterOrEqualImmReplacesTheTop :
    MeetsF3 .greaterOrEqualImm 0xFFFF (at3 .greaterOrEqualImm 0xFFFF) ∧ MeetsCut .greaterOrEqualImm (cut .greaterOrEqualImm) ∧
    (machine [65535] []).occupied = [] ++ [65535] ∧ (65535 : Word).toNat ≥ (0xFFFF : Imm).toNat ∧
    (machine [65534] []).occupied = [] ++ [65534] ∧ (65534 : Word).toNat < (0xFFFF : Imm).toNat ∧
    (machine [] []).h.val = 0 := by decide
theorem witness_PopResultPopsIntoTheResultRegister :
    MeetsF1 .popResult (at1 .popResult) ∧
    (machine [9] []).occupied = [] ++ [9] ∧
    (machine [] []).h.val = 0 := by decide
theorem witness_PrintPopsAndEmits :
    MeetsF1 .print (at1 .print) ∧
    (machine [9] []).occupied = [] ++ [9] ∧
    (machine [] []).h.val = 0 := by decide
theorem witness_DoneAbortAndUndefinedBytesEndTheLaunch :
    MeetsF1 .done (at1 .done) ∧ MeetsF1 .abort (at1 .abort) ∧
    let s := machine [] [0x1A]
    s.status = .running ∧ s.code[s.ip]? = some 0x1A ∧ (∀ m, s.config.opcodeValue m ≠ 0x1A) ∧ s.config.wellFormed = true := ⟨by decide, by decide, rfl, by decide, fun m => by cases m <;> decide, by decide⟩

end Sys2Proof.Tests
end

/-! ## The state's registers: how `ip` moves, who touches `res` (10_state.md R31, R35) -/

namespace Sys2Proof.Machine

/-! ### Fetches that go on (inversions of the reads of the code space) -/

/-- A code read followed by more pseudocode goes on exactly when the byte is in the buffer and the rest goes on from the same
state (R55). -/
theorem codeRead_bind_eq_go {β : Type} {k : Nat} {s t : State} {f : Byte → State → Act β} {b : β} :
    (codeRead k s).bind f = .go b t ↔ ∃ c, s.code[k]? = some c ∧ f c s = .go b t := by
  cases hc : s.code[k]? with
  | none => simp [codeRead_none (List.getElem?_eq_none_iff.mp hc), raise]
  | some c => simp [codeRead_some hc]

/-- FetchOpcode moves `ip` by 1 and changes nothing else (R73). -/
theorem fetchOpcode_state {s t : State} {b : Byte} (h : fetchOpcode s = .go b t) : t = s.withIp (s.ip + 1) := by
  simp only [fetchOpcode, codeRead_bind_eq_go] at h
  obtain ⟨_, -, hgo⟩ := h
  cases hgo
  rfl

/-- FetchImm moves `ip` by 2 and changes nothing else (R74). -/
theorem fetchImm_state {s t : State} {imm : Imm} (h : fetchImm s = .go imm t) : t = s.withIp (s.ip + 2) := by
  simp only [fetchImm, codeRead_bind_eq_go] at h
  obtain ⟨_, -, _, -, hgo⟩ := h
  cases hgo
  rfl

/-- PeekImm changes nothing (R75). -/
theorem peekImm_state {s t : State} {imm : Imm} (h : peekImm s = .go imm t) : t = s := by
  simp only [peekImm, codeRead_bind_eq_go] at h
  obtain ⟨_, -, _, -, hgo⟩ := h
  cases hgo
  rfl

/-! ### `ip` under an instruction's own actions -/

theorem StackAndStatus.ip_eq {s t : State} (h : StackAndStatus s t) : t.ip = s.ip := by
  obtain ⟨_, _, _, rfl, -⟩ := h
  rfl

/-- An instruction leaves `ip` alone, or it is a jump and sets `ip` to its target (R31, R153). -/
theorem exec_ip {i : Instr} {s t : State} (h : exec i s = .next t) :
    t.ip = s.ip ∨ ∃ target : Imm, (i = .jump target ∨ i = .jumpIfTrue target ∨ i = .jumpIfFalse target) ∧
      t.ip = target.toNat := by
  obtain hs | ⟨u, _, _, hs, rfl, -⟩ | ⟨-, u, _, hs, rfl⟩ | ⟨-, u, _, hs, rfl⟩ | ⟨u, target, -, rfl, hi⟩ := exec_cases h
  · exact .inl hs.ip_eq
  · exact .inl hs.ip_eq
  · exact .inl hs.ip_eq
  · exact .inl hs.ip_eq
  · exact .inr ⟨target, hi, rfl⟩

/-- Settles O24: each fetch by inverting its code reads, each instruction by what it can do at all (`exec_cases`). -/
theorem instructionPointerChangesInFourWays : Obligations.InstructionPointerChangesInFourWays :=
  ⟨fun _ _ _ => fetchOpcode_state, fun _ _ _ => fetchImm_state, fun _ _ _ => peekImm_state, fun _ _ _ => exec_ip⟩

/-! ### The result register -/

/-- Another value in `res` is an update that no primitive reads or undoes (R35). -/
theorem unread_withRes (v : Word) : Unread (fun t => t.withRes v) where
  h _ := rfl
  slots _ := rfl
  mem _ := rfl
  policy _ := rfl
  withStack _ _ _ := rfl
  withMem _ _ := rfl
  withStatus _ _ := rfl
  withIp _ _ := rfl
  emit _ _ := rfl

/-- POP_RESULT on a nonempty stack pops the top into `res` (R170). -/
theorem exec_popResult_of_ne_zero {s : State} (h : s.h.val ≠ 0) :
    exec .popResult s =
      .next ((s.withStack ⟨s.h.val - 1, by omega⟩ s.slots).withRes (s.slot (s.h.val - 1))) := by
  rw [exec, execPopResult, pop_of_ne_zero h, Act.bind_go, Act.outcome_go]

/-- POP_RESULT on an empty stack records StackUnderflow and changes nothing else (R170). -/
theorem exec_popResult_of_zero {s : State} (h : s.h.val = 0) :
    exec .popResult s = .next (s.withStatus (.faulted .stackUnderflow)) := by
  rw [exec, execPopResult, pop_of_zero h, Act.bind_raise, Act.outcome_raise]

/-- On a nonempty stack POP_RESULT overwrites whatever `res` held. -/
theorem exec_popResult_withRes {s : State} (v : Word) (h : s.h.val ≠ 0) :
    exec .popResult (s.withRes v) = exec .popResult s := by
  rw [exec_popResult_of_ne_zero h, exec_popResult_of_ne_zero (s := s.withRes v) h]
  rfl

/-- Outside Running get_result answers `res` (R101). -/
theorem getResult_of_not_running {s : State} (h : s.status ≠ .running) : getResult s = some s.res := by
  rw [getResult, if_neg h]

/-- Settles O25: `res` is unread, so every instruction but POP_RESULT commutes with a change of it; POP_RESULT overwrites it
or faults before writing it. -/
theorem onlyPopResultTouchesTheResultRegister : Obligations.OnlyPopResultTouchesTheResultRegister := by
  refine fun i s v => ⟨fun hi => (unread_withRes v).exec hi s, exec_popResult_withRes v, fun hempty => ?_,
    getResult_of_not_running⟩
  rw [exec_popResult_of_zero hempty, exec_popResult_of_zero (s := s.withRes v) hempty]
  rfl

end Sys2Proof.Machine

/-! ## The memories: what a memory write changes, who touches the code space (20_memory.md R53, R56) -/

namespace Sys2Proof.Machine

/-! ### One memory write -/

/-- The written cell holds the whole value (R53). -/
@[simp] theorem State.load_store_same (s : State) (a : Addr) (v : Word) : (s.store a v).load a = v := by
  rw [State.load_store, if_pos rfl]

/-- Every other cell is left alone (R53). -/
theorem State.sameMemoryBut_store (s : State) (a : Addr) (v : Word) : SameMemoryBut a s (s.store a v) :=
  fun b hb => by rw [State.load_store, if_neg hb]

/-- A memory write is not a stack write: no slot changes (R53). -/
theorem State.sameSlots_store (s : State) (a : Addr) (v : Word) : SameSlots s (s.store a v) :=
  State.withMem_slot s _

/-- A memory write moves no register (R53). -/
theorem State.sameRegisters_store (s : State) (a : Addr) (v : Word) : SameRegisters s (s.store a v) :=
  ⟨rfl, rfl, rfl, rfl, rfl, rfl⟩

/-- Settles O30: MemRead after MemWrite gives the cells (`State.load_store`); the rest is the frame of `withMem`. -/
theorem memWriteSetsOneWholeCell : Obligations.MemWriteSetsOneWholeCell := fun s a v =>
  ⟨s.load_store_same a v, s.sameMemoryBut_store a v, s.sameSlots_store a v, State.withMem_h s _, s.sameRegisters_store a v⟩

/-! ### The code space -/

/-- Another code buffer is an update that no primitive reads or undoes (R56). -/
theorem unread_withCode (code : List Byte) : Unread (fun t => t.withCode code) where
  h _ := rfl
  slots _ := rfl
  mem _ := rfl
  policy _ := rfl
  withStack _ _ _ := rfl
  withMem _ _ := rfl
  withStatus _ _ := rfl
  withIp _ _ := rfl
  emit _ _ := rfl

/-- Settles O23: the code buffer is unread, so every instruction commutes with a change of it; POP_RESULT does too, because
writing `res` leaves the buffer alone. -/
theorem codeIsNeitherWrittenNorReadAsData : Obligations.CodeIsNeitherWrittenNorReadAsData := fun i s code => by
  by_cases hi : i = .popResult
  · rw [hi]
    exact (unread_withCode code).exec_popResult (fun _ _ => rfl) s
  · exact (unread_withCode code).exec hi s

end Sys2Proof.Machine


/-! ## The decoder's reads of the code space (30_encoding.md R73 to R75) -/

namespace Sys2Proof.Machine

/-- An opcode read at or past CODE_LEN faults before `ip` moves (R55, R73). -/
theorem fetchOpcode_short {s : State} (h : s.code.length ≤ s.ip) : fetchOpcode s = raise .fetchOutOfBounds s := by
  rw [fetchOpcode, codeRead_none h, Act.bind_raise]

/-- Settles O7: each read by its own law inside and outside the buffer, with the joined immediate in numbers by
`joinImm_toNat`. -/
theorem decoderReadsBigEndianAndAdvances : Obligations.DecoderReadsBigEndianAndAdvances := fun _ =>
  ⟨fun _ => fetchOpcode_some,
    fun hi lo hhi hlo => ⟨joinImm hi lo, joinImm_toNat hi lo, fetchImm_some hhi hlo, peekImm_some hhi hlo⟩,
    fetchOpcode_short,
    fun hshort => ⟨fetchImm_short hshort, peekImm_short hshort⟩⟩

end Sys2Proof.Machine


/-! ## The dispatch_engine: when it steps, and its two dispatch modes (40_dispatch_engine.md R92, R96, R97) -/

namespace Sys2Proof.Machine

/-! ### Stepping and launching by status -/

/-- The engine steps exactly while Running (R92). -/
theorem step_answers_next_iff {s : State} : (∃ t, step s = .next t) ↔ s.status = .running :=
  ⟨fun ⟨_, h⟩ => running_of_step h, step_answers_next⟩

/-- Outside Running a launch resets the state and supplies the code (R99, R240). -/
theorem launch_of_not_running {s : State} (code : List Byte) (h : s.status ≠ .running) :
    launch code s = some (s.launchReset.withCode code) := if_neg h

/-- Settles O11: a running machine steps (`step_answers_next`) and no other does (`running_of_step`); the launch reset writes
Running. -/
theorem noStepOutsideRunning : Obligations.NoStepOutsideRunning := fun _ =>
  ⟨step_answers_next_iff, fun code h => ⟨_, launch_of_not_running code h, rfl⟩⟩

/-! ### The configuration along a run -/

/-- No step changes the configuration (R38). -/
theorem step_config {s t : State} (h : step s = .next t) : t.config = s.config := by
  obtain ⟨i, n, -, -, hexec⟩ | ⟨n, -, -, rfl⟩ := step_cases h
  · exact (exec_config_code hexec).1
  · rfl

/-- An unread update that commutes with a write of `res` too commutes with every instruction. -/
theorem Unread.exec_of_withRes {g : State → State} (hg : Unread g) (hres : ∀ s v, g (s.withRes v) = (g s).withRes v)
    (i : Instr) (s : State) : Machine.exec i (g s) = mapNext g (Machine.exec i s) := by
  by_cases hi : i = .popResult
  · rw [hi]
    exact hg.exec_popResult hres s
  · exact hg.exec hi s

/-- Of the configuration an instruction's own actions read the address policy alone: an update of the rest is unread. -/
theorem unread_mapConfig {f : Config → Config} (hf : ∀ c, (f c).addressPolicy = c.addressPolicy) :
    Unread (fun t => t.withConfig (f t.config)) where
  h _ := rfl
  slots _ := rfl
  mem _ := rfl
  policy _ := hf _
  withStack _ _ _ := rfl
  withMem _ _ := rfl
  withStatus _ _ := rfl
  withIp _ _ := rfl
  emit _ _ := rfl

/-- An instruction does the same in a configuration that differs in no more than opcode values and dispatch mode. -/
theorem exec_mapConfig {f : Config → Config} (hf : ∀ c, (f c).addressPolicy = c.addressPolicy) (i : Instr) (s : State) :
    exec i (s.withConfig (f s.config)) = mapNext (fun t => t.withConfig (f t.config)) (exec i s) :=
  (unread_mapConfig hf).exec_of_withRes (fun _ _ => rfl) i s

/-! ### The dispatch mode is unobservable -/

/-- Decoding an opcode byte gives the same under another dispatch mode (R97). -/
theorem decodeOpcode_withMode {c : Config} (h : c.wellFormed = true) (d : DispatchMode) (b : Byte) :
    decodeOpcode { c with dispatchMode := d } b = decodeOpcode c b := by
  rw [decodeOpcode_eq_decodeDirect h, decodeOpcode_eq_decodeDirect (c := { c with dispatchMode := d }) h]
  rfl

section withDispatch

variable (d : DispatchMode) (s : State)

theorem codeRead_withDispatch (k : Nat) :
    codeRead k (s.withDispatch d) = (codeRead k s).mapState (State.withDispatch d) := by
  cases hb : s.code[k]? with
  | none =>
    have hk := List.getElem?_eq_none_iff.mp hb
    rw [codeRead_none hk, codeRead_none (s := s.withDispatch d) hk]
    rfl
  | some b =>
    rw [codeRead_some hb, codeRead_some (s := s.withDispatch d) hb]
    rfl

theorem peekImm_withDispatch : peekImm (s.withDispatch d) = (peekImm s).mapState (State.withDispatch d) := by
  rw [peekImm, codeRead_withDispatch]
  refine Act.bind_mapState _ fun hi s => ?_
  rw [codeRead_withDispatch]
  exact Act.bind_mapState _ fun lo s => rfl

theorem fetchImm_withDispatch : fetchImm (s.withDispatch d) = (fetchImm s).mapState (State.withDispatch d) := by
  rw [fetchImm, codeRead_withDispatch]
  refine Act.bind_mapState _ fun hi s => ?_
  rw [codeRead_withDispatch]
  exact Act.bind_mapState _ fun lo s => rfl

theorem readImm_withDispatch (m : Mnemonic) :
    readImm m (s.withDispatch d) = (readImm m s).mapState (State.withDispatch d) := by
  unfold readImm
  split_ifs
  · exact peekImm_withDispatch d s
  · exact fetchImm_withDispatch d s
  · rfl

/-- The fetch is the same under another dispatch mode: of the mode only the decoder's choice could depend (R91, R97). -/
theorem fetchInstr_withDispatch (h : s.config.wellFormed = true) :
    fetchInstr (s.withDispatch d) = (fetchInstr s).mapState (State.withDispatch d) := by
  cases hb : s.code[s.ip]? with
  | none =>
    have hip := List.getElem?_eq_none_iff.mp hb
    rw [fetchInstr, fetchInstr, fetchOpcode_short hip, fetchOpcode_short (s := s.withDispatch d) hip]
    rfl
  | some b =>
    have hd : decodeOpcode (s.withDispatch d).config b = decodeOpcode s.config b := decodeOpcode_withMode h d b
    rw [fetchInstr, fetchInstr, fetchOpcode_some hb, fetchOpcode_some (s := s.withDispatch d) hb, Act.bind_go, Act.bind_go,
      State.withIp_config, State.withIp_config, hd]
    cases decodeOpcode s.config b with
    | none => rfl
    | some m =>
      have hread := readImm_withDispatch d (s.withIp (s.ip + 1)) m
      exact (congrArg (Act.bind · _) hread).trans (Act.bind_mapState _ fun imm s => rfl)

theorem exec_withDispatch (i : Instr) : exec i (s.withDispatch d) = mapNext (State.withDispatch d) (exec i s) :=
  exec_mapConfig (f := fun c => { c with dispatchMode := d }) (fun _ => rfl) i s

/-- One step is the same under another dispatch mode, the stops outside Running included (R92, R97). -/
theorem step_withDispatch (h : s.config.wellFormed = true) :
    step (s.withDispatch d) = mapNext (State.withDispatch d) (step s) := by
  have hfetch := fetchInstr_withDispatch d s h
  cases hs : s.status with
  | running =>
    have hs' : (s.withDispatch d).status = .running := hs
    cases hf : fetchInstr s with
    | go i u =>
      rw [hf] at hfetch
      rw [step_go hs hf, step_go hs' hfetch, exec_withDispatch]
    | ended u =>
      rw [hf] at hfetch
      rw [step_ended hs hf, step_ended hs' hfetch]
      rfl
  | idle => simp only [step, hs, State.withDispatch, State.withConfig_status, mapNext]
  | halted o => simp only [step, hs, State.withDispatch, State.withConfig_status, mapNext]
  | faulted f => simp only [step, hs, State.withDispatch, State.withConfig_status, mapNext]

/-- A run is the same under another dispatch mode: every step is (`step_withDispatch`), and the opcode values stay injective
along it. -/
theorem run_withDispatch (n : Nat) (h : s.config.wellFormed = true) :
    Host.Core.run Sys2Proof.core n (s.withDispatch d) =
      mapNext (State.withDispatch d) (Host.Core.run Sys2Proof.core n s) := by
  induction n generalizing s with
  | zero => rfl
  | succ n ih =>
    rw [run_succ, run_succ, step_withDispatch d s h]
    cases hstep : step s with
    | next t => exact ih t (by rw [step_config hstep, h])
    | fault f => rfl
    | refused r => rfl

end withDispatch

/-- Settles O6: the run under Indirect is the run of the Direct state with its mode changed (`run_withDispatch`), because the
later change of mode replaces the earlier one. -/
theorem directAndIndirectDispatchRunIdentically : Obligations.DirectAndIndirectDispatchRunIdentically :=
  fun s n h => run_withDispatch .indirect (s.withDispatch .direct) n h

/-! ### The dispatch table -/

/-- Entry b of the table is the handler of the mnemonic whose OPCODE_VALUE is b (R96). -/
theorem dispatchTable_eq_handler_iff {c : Config} (h : c.wellFormed = true) (b : Byte) (m : Mnemonic) :
    (dispatchTable c)[b.toNat]? = some (some m) ↔ c.opcodeValue m = b := by
  rw [dispatchTable_getElem? h, Option.some_inj]
  constructor
  · exact decodeDirect_value
  · rintro rfl
    exact decodeDirect_opcodeValue h m

/-- Entry b of the table is the fallback exactly when b is undefined (R80, R96). -/
theorem dispatchTable_eq_fallback_iff {c : Config} (h : c.wellFormed = true) (b : Byte) :
    (dispatchTable c)[b.toNat]? = some none ↔ ∀ m, c.opcodeValue m ≠ b := by
  rw [dispatchTable_getElem? h, Option.some_inj, decodeDirect_none, Config.isUndefinedByte_iff]

/-- Entry b of the table is what the decoder selects under either mode (R94 to R96). -/
theorem dispatchTable_eq_decodeOpcode {c : Config} (h : c.wellFormed = true) (b : Byte) :
    (dispatchTable c)[b.toNat]? = some (decodeOpcode c b) := by
  rw [dispatchTable_getElem? h, decodeOpcode_eq_decodeDirect h]

/-- The fetch of a byte that the decoder assigns no mnemonic is UNDEFINED(b), with `ip` past the byte alone (R80). -/
theorem fetchInstr_undefined {s : State} {b : Byte} (hb : s.code[s.ip]? = some b)
    (hd : decodeOpcode s.config b = none) : fetchInstr s = .go (.undefined b) (s.withIp (s.ip + 1)) := by
  rw [fetchInstr, fetchOpcode_some hb, Act.bind_go, State.withIp_config, hd]

/-- The fallback handler ends the launch in UnknownOpcode (R96, R174). -/
theorem step_fallback {s : State} {b : Byte} (hr : s.status = .running) (hw : s.config.wellFormed = true)
    (hb : s.code[s.ip]? = some b) (hentry : (dispatchTable s.config)[b.toNat]? = some none) :
    step s = .next ((s.withIp (s.ip + 1)).withStatus (.halted .unknownOpcode)) := by
  have hd : decodeOpcode s.config b = none := by rwa [dispatchTable_eq_decodeOpcode hw, Option.some_inj] at hentry
  rw [step_go hr (fetchInstr_undefined hb hd)]
  rfl

/-- Settles O5: the entries by the table's laws, the fallback's step by `step_fallback`; the table is a function of the
configuration, which no step changes, and of which an instruction reads no opcode value (`exec_mapConfig`). -/
theorem dispatchTableHoldsEachHandlerOrTheFallback : Obligations.DispatchTableHoldsEachHandlerOrTheFallback := by
  refine ⟨fun c h => ?_, fun s b hr hw hb hentry => ?_, fun s t hstep => ?_, fun i s v => ?_⟩
  · exact ⟨dispatchTable_length c, dispatchTable_eq_handler_iff h, dispatchTable_eq_fallback_iff h,
      dispatchTable_eq_decodeOpcode h⟩
  · exact ⟨_, step_fallback hr hw hb hentry, rfl⟩
  · rw [step_config hstep]
  · exact exec_mapConfig (f := fun c => { c with opcodes := v }) (fun _ => rfl) i s

end Sys2Proof.Machine

/-! ## The dispatch_engine: what a run prints and what ends it (40_dispatch_engine.md R98, R107) -/

namespace Sys2Proof.Machine

/-- What a step did, told with its fetch: it ran the fetched instruction, or the fetch faulted. -/
theorem step_fetch_cases {s t : State} (h : step s = .next t) :
    (∃ i n, fetchInstr s = .go i (s.withIp n) ∧ exec i (s.withIp n) = .next t) ∨
    (∃ n, fetchInstr s = raise .fetchOutOfBounds (s.withIp n) ∧
      t = (s.withIp n).withStatus (.faulted .fetchOutOfBounds)) := by
  have hr := running_of_step h
  obtain ⟨i, n, hf, -⟩ | ⟨n, -, hf, -⟩ := fetchInstr_cases s
  · exact .inl ⟨i, _, hf, by rw [← step_go hr hf, h]⟩
  · rw [step_ended hr hf] at h
    cases h
    exact .inr ⟨_, hf, rfl⟩

/-! ### The output of a run -/

theorem StackAndStatus.out_eq {s t : State} (h : StackAndStatus s t) : t.out = s.out := by
  obtain ⟨_, _, _, rfl, -⟩ := h
  rfl

/-- Only PRINT changes `out` (R67). -/
theorem exec_out_of_ne_print {i : Instr} {s t : State} (hi : i ≠ .print) (h : exec i s = .next t) : t.out = s.out := by
  obtain hs | ⟨u, _, _, hs, rfl, -⟩ | ⟨-, u, _, hs, rfl⟩ | ⟨hprint, -⟩ | ⟨u, _, hs, rfl, -⟩ := exec_cases h
  · exact hs.out_eq
  · exact hs.out_eq
  · exact hs.out_eq
  · exact absurd hprint hi
  · exact hs.out_eq

/-- The top of the stack as the last occupied slot. -/
theorem occupied_getLast? (s : State) :
    s.occupied.getLast? = if s.h.val = 0 then none else some (s.slot (s.h.val - 1)) := by
  split_ifs with h
  · simp [State.occupied, h]
  · rw [occupied_split h, List.getLast?_concat]

/-- PRINT appends the top to `out`, and nothing when the stack is empty (R172). -/
theorem exec_print_out {s t : State} (h : exec .print s = .next t) : t.out = s.out ++ s.occupied.getLast?.toList := by
  rw [exec, execPrint] at h
  obtain ⟨hzero, hpop⟩ | ⟨hne, hpop⟩ := pop_cases s <;> rw [hpop] at h <;> cases h
  · rw [occupied_getLast?, if_pos hzero]
    exact (List.append_nil _).symm
  · rw [occupied_getLast?, if_neg hne]
    rfl

theorem eventAbout_of_print {s u : State} (h : nextInstr s = some (.print, u)) :
    eventAbout s = u.occupied.getLast? := by simp only [eventAbout, h]

theorem eventAbout_of_ne_print {s u : State} {i : Instr} (hi : i ≠ .print) (h : nextInstr s = some (i, u)) :
    eventAbout s = none := by
  simp only [eventAbout, h]
  split
  next heq =>
    cases heq
    exact absurd rfl hi
  next => rfl

/-- A fetch that faults gives no instruction. -/
theorem nextInstr_of_raise {s u : State} {f : Fault} (h : fetchInstr s = raise f u) : nextInstr s = none := by
  rw [Option.eq_none_iff_forall_ne_some]
  rintro ⟨i, v⟩ hsome
  obtain ⟨-, hgo⟩ := nextInstr_eq_some.mp hsome
  rw [h] at hgo
  cases hgo

theorem eventAbout_of_raise {s u : State} {f : Fault} (h : fetchInstr s = raise f u) : eventAbout s = none := by
  simp only [eventAbout, nextInstr_of_raise h]

/-- A step appends to `out` the value it prints, if it prints one (R98). -/
theorem step_out {s t : State} (h : step s = .next t) : t.out = s.out ++ (eventAbout s).toList := by
  obtain ⟨i, n, hf, hexec⟩ | ⟨n, hf, rfl⟩ := step_fetch_cases h
  · have hnext := nextInstr_eq_some.mpr ⟨running_of_step h, hf⟩
    by_cases hi : i = .print
    · subst hi
      rw [eventAbout_of_print hnext, exec_print_out hexec, State.withIp_out]
    · rw [eventAbout_of_ne_print hi hnext, exec_out_of_ne_print hi hexec]
      exact (List.append_nil _).symm
  · rw [eventAbout_of_raise hf]
    exact (List.append_nil _).symm

theorem eventsOf_succ {s t : State} (n : Nat) (h : step s = .next t) :
    eventsOf (n + 1) s = (eventAbout s).toList ++ eventsOf n t := by simp only [eventsOf, h]

/-- A run appends to `out` the values it prints, in program order (R98). -/
theorem stepsTo_out {n : Nat} {s t : State} (h : StepsTo n s t) : t.out = s.out ++ eventsOf n s := by
  induction n generalizing s with
  | zero =>
    rw [stepsTo_zero.mp h]
    exact (List.append_nil _).symm
  | succ n ih =>
    obtain ⟨u, hstep, hrun⟩ := stepsTo_succ.mp h
    rw [ih hrun, step_out hstep, eventsOf_succ n hstep, List.append_assoc]

/-- Settles O19: a run appends its events to `out` (`stepsTo_out`), and a launch starts with `out` empty. -/
theorem outputIsThePrintedValuesInProgramOrder : Obligations.OutputIsThePrintedValuesInProgramOrder := by
  intro s s₀ t code n hlaunch hrun
  have hempty : s₀.out = [] := by rw [launch_some hlaunch]; rfl
  rw [stepsTo_out hrun, hempty, List.nil_append]

/-! ### What ends a launch -/

/-- t has the status of s, or a fault was recorded in between. -/
def StatusKeptOrFaulted (s t : State) : Prop := t.status = s.status ∨ ∃ f, t.status = .faulted f

namespace StatusKeptOrFaulted

theorem trans (a b c : State) (hab : StatusKeptOrFaulted a b) (hbc : StatusKeptOrFaulted b c) :
    StatusKeptOrFaulted a c := by
  obtain hbc | hbc := hbc
  · rwa [StatusKeptOrFaulted, hbc]
  · exact .inr hbc

theorem push (v : Word) (s : State) : StatusKeptOrFaulted s (push v s).final := by
  by_cases h : s.h.val = 256
  · rw [push_full h]; exact .inr ⟨_, rfl⟩
  · rw [push_room v (by omega)]; exact .inl rfl

theorem pop (s : State) : StatusKeptOrFaulted s (pop s).final := by
  obtain ⟨-, h⟩ | ⟨-, h⟩ := pop_cases s <;> rw [h]
  · exact .inr ⟨_, rfl⟩
  · exact .inl rfl

theorem top (s : State) : StatusKeptOrFaulted s (top s).final := by
  by_cases h : s.h.val = 0
  · rw [top_of_zero h]; exact .inr ⟨_, rfl⟩
  · rw [top_of_ne_zero h]; exact .inl rfl

theorem settop (v : Word) (s : State) : StatusKeptOrFaulted s (settop v s).final := by
  by_cases h : s.h.val = 0
  · rw [settop_of_zero h]; exact .inr ⟨_, rfl⟩
  · rw [settop_of_ne_zero v h]; exact .inl rfl

theorem addrOf (v : Word) (s : State) : StatusKeptOrFaulted s (addrOf v s).final := by
  cases h : addressOf s.config.addressPolicy v with
  | none => rw [addrOf_none h]; exact .inr ⟨_, rfl⟩
  | some a => rw [addrOf_some h]; exact .inl rfl

theorem topOp (op : Word → Word) (s : State) : StatusKeptOrFaulted s (topOp op s).final :=
  Act.final_bind _ trans (top s) fun _ s₁ _ => settop _ s₁

theorem binaryOp (op : Word → Word → Word) (s : State) : StatusKeptOrFaulted s (binaryOp op s).final :=
  Act.final_bind _ trans (pop s) fun r s₁ _ => topOp (op · r) s₁

theorem conditionalJump (test : Word → Bool) (target : Imm) (s : State) :
    StatusKeptOrFaulted s (conditionalJump test target s).final :=
  Act.final_bind _ trans (pop s) fun c u _ => by cases test c <;> exact .inl rfl

end StatusKeptOrFaulted

/-- The outcome with which an instruction ends the launch, if it ends it with one (R107). -/
def haltOf (i : Instr) (s : State) : Option RunOutcome :=
  match i with
  | .done => some .success
  | .abort => some .endOfStream
  | .undefined _ => some .unknownOpcode
  | .div => if s.occupied.getLast? = some 0 then some .divisionByZero else none
  | .pushImm _ | .loadMemImm _ | .loadAddMemImm _ | .storeMemImm _ | .loadIndirect | .storeIndirect | .dup | .discard
  | .add | .addImm _ | .sub | .mul | .jump _ | .jumpIfTrue _ | .jumpIfFalse _ | .equal | .less | .lessOrEqual | .greater
  | .greaterOrEqual | .greaterOrEqualImm _ | .popResult | .print => none

theorem haltOf_eq_success {i : Instr} {s : State} : haltOf i s = some .success ↔ i = .done := by
  cases i <;> simp [haltOf]

theorem haltOf_eq_endOfStream {i : Instr} {s : State} : haltOf i s = some .endOfStream ↔ i = .abort := by
  cases i <;> simp [haltOf]

theorem haltOf_eq_unknownOpcode {i : Instr} {s : State} :
    haltOf i s = some .unknownOpcode ↔ ∃ b, i = .undefined b := by cases i <;> simp [haltOf]

theorem haltOf_eq_divisionByZero {i : Instr} {s : State} :
    haltOf i s = some .divisionByZero ↔ i = .div ∧ ∃ rest, s.occupied = rest ++ [0] := by
  rw [← List.getLast?_eq_some_iff]
  cases i <;> simp [haltOf]

/-- DIV with a zero divisor records DivisionByZero and keeps the pop (R144, R202). -/
theorem execDiv_of_zero_divisor {s : State} (h : s.occupied.getLast? = some 0) :
    execDiv s = .next ((s.withStack ⟨s.h.val - 1, by omega⟩ s.slots).withStatus (.halted .divisionByZero)) := by
  obtain ⟨rest, hocc⟩ := List.getLast?_eq_some_iff.mp h
  rw [execDiv, (pop_occupied hocc).1, Act.bind_go, if_pos rfl, Act.outcome_halt]

/-- DIV whose divisor is not 0 ends the launch by a fault or not at all (R144). -/
theorem execDiv_keeps_or_faults {s t : State} (h : s.occupied.getLast? ≠ some 0) (hexec : execDiv s = .next t) :
    StatusKeptOrFaulted s t := by
  cases hexec
  refine Act.final_bind _ StatusKeptOrFaulted.trans (.pop s) fun r u hpop => ?_
  obtain ⟨-, hr⟩ | ⟨hne, hr⟩ := pop_cases s <;> rw [hr] at hpop <;> cases hpop
  rw [occupied_getLast?, if_neg hne] at h
  rw [if_neg fun hzero => h (congrArg some hzero)]
  exact .topOp (div64 · _) _

/-- An instruction with an outcome records it (R107). -/
theorem exec_status_of_halt {i : Instr} {s t : State} {o : RunOutcome} (ho : haltOf i s = some o)
    (h : exec i s = .next t) : t.status = .halted o := by
  cases o with
  | success => cases haltOf_eq_success.mp ho; cases h; rfl
  | endOfStream => cases haltOf_eq_endOfStream.mp ho; cases h; rfl
  | unknownOpcode => obtain ⟨b, rfl⟩ := haltOf_eq_unknownOpcode.mp ho; cases h; rfl
  | divisionByZero =>
    obtain ⟨rfl, hocc⟩ := haltOf_eq_divisionByZero.mp ho
    rw [exec, execDiv_of_zero_divisor (List.getLast?_eq_some_iff.mpr hocc)] at h
    cases h
    rfl

/-- An instruction without an outcome keeps the status or records a fault (R107). -/
theorem exec_status_of_no_halt {i : Instr} {s t : State} (ho : haltOf i s = none) (h : exec i s = .next t) :
    StatusKeptOrFaulted s t := by
  cases i with
  | abort => cases ho
  | done => cases ho
  | undefined b => cases ho
  | pushImm imm => cases h; exact .push _ s
  | loadMemImm a => cases h; exact .push _ s
  | loadAddMemImm a => cases h; exact .topOp _ s
  | addImm imm => cases h; exact .topOp _ s
  | greaterOrEqualImm imm => cases h; exact .topOp _ s
  | add => cases h; exact .binaryOp _ s
  | sub => cases h; exact .binaryOp _ s
  | mul => cases h; exact .binaryOp _ s
  | equal => cases h; exact .binaryOp _ s
  | less => cases h; exact .binaryOp _ s
  | lessOrEqual => cases h; exact .binaryOp _ s
  | greater => cases h; exact .binaryOp _ s
  | greaterOrEqual => cases h; exact .binaryOp _ s
  | discard => cases h; exact .pop s
  | dup => cases h; exact Act.final_bind _ StatusKeptOrFaulted.trans (.top s) fun _ u _ => .push _ u
  | div => exact execDiv_keeps_or_faults (by simpa [haltOf] using ho) h
  | loadIndirect =>
    cases h
    exact Act.final_bind _ StatusKeptOrFaulted.trans (.pop s) fun _ u _ =>
      Act.final_bind _ StatusKeptOrFaulted.trans (.addrOf _ u) fun _ w _ => .push _ w
  | storeIndirect =>
    cases h
    exact Act.final_bind _ StatusKeptOrFaulted.trans (.pop s) fun _ u _ =>
      Act.final_bind _ StatusKeptOrFaulted.trans (.pop u) fun _ v _ =>
        Act.final_bind _ StatusKeptOrFaulted.trans (.addrOf _ v) fun _ w _ => .inl rfl
  | storeMemImm a => cases h; exact Act.final_bind _ StatusKeptOrFaulted.trans (.pop s) fun _ _ _ => .inl rfl
  | popResult => cases h; exact Act.final_bind _ StatusKeptOrFaulted.trans (.pop s) fun _ _ _ => .inl rfl
  | print => cases h; exact Act.final_bind _ StatusKeptOrFaulted.trans (.pop s) fun _ _ _ => .inl rfl
  | jump target => cases h; exact .inl rfl
  | jumpIfTrue target => cases h; exact .conditionalJump _ target s
  | jumpIfFalse target => cases h; exact .conditionalJump _ target s

/-- A running machine's instruction halts with an outcome exactly when `haltOf` says so. -/
theorem exec_halted_iff {i : Instr} {s t : State} {o : RunOutcome} (hr : s.status = .running)
    (h : exec i s = .next t) : t.status = .halted o ↔ haltOf i s = some o := by
  refine ⟨fun hst => ?_, fun ho => exec_status_of_halt ho h⟩
  cases ho : haltOf i s with
  | none =>
    obtain hkept | ⟨f, hfault⟩ := exec_status_of_no_halt ho h
    · rw [hkept, hr] at hst
      cases hst
    · rw [hfault] at hst
      cases hst
  | some o' =>
    rw [exec_status_of_halt ho h] at hst
    cases hst
    rfl

/-- A step ends the launch with an outcome exactly when the fetched instruction does; a fetch that faults never does. -/
theorem step_halted_iff {s t : State} {o : RunOutcome} (h : step s = .next t) :
    t.status = .halted o ↔ ∃ u i, fetchInstr s = .go i u ∧ haltOf i u = some o := by
  have hr := running_of_step h
  obtain ⟨i, n, hf, hexec⟩ | ⟨n, hf, rfl⟩ := step_fetch_cases h
  · rw [exec_halted_iff (s := s.withIp n) hr hexec]
    simp [hf]
  · simp only [hf, raise, State.withStatus_status, reduceCtorEq, false_and, exists_false]

/-- A step leaves the machine Running, or ends the launch with an outcome or a fault (R107). -/
theorem step_status {s t : State} (h : step s = .next t) :
    t.status = .running ∨ (∃ o, t.status = .halted o) ∨ ∃ f, t.status = .faulted f := by
  have hr := running_of_step h
  obtain ⟨i, n, -, hexec⟩ | ⟨n, -, rfl⟩ := step_fetch_cases h
  · cases ho : haltOf i (s.withIp n) with
    | some o => exact .inr (.inl ⟨o, exec_status_of_halt ho hexec⟩)
    | none =>
      obtain hkept | hfault := exec_status_of_no_halt ho hexec
      · exact .inl (hkept.trans hr)
      · exact .inr (.inr hfault)
  · exact .inr (.inr ⟨_, rfl⟩)

/-- A step at or past CODE_LEN records FetchOutOfBounds and changes nothing else (R55, R73). -/
theorem step_past_buffer {s : State} (hr : s.status = .running) (h : s.code.length ≤ s.ip) :
    step s = .next (s.withStatus (.faulted .fetchOutOfBounds)) :=
  step_ended hr (by rw [fetchInstr, fetchOpcode_short h]; rfl)

/-- Settles O27: a step halts exactly as the fetched instruction's `haltOf` says (`step_halted_iff`), which names one kind of
instruction for each outcome. -/
theorem fiveEventsEndALaunch : Obligations.FiveEventsEndALaunch := by
  intro s t hr h
  refine ⟨(step_halted_iff h).trans ?_, (step_halted_iff h).trans ?_, (step_halted_iff h).trans ?_,
    (step_halted_iff h).trans ?_, step_status h, fun hip => ?_⟩
  · simp only [haltOf_eq_success, exists_eq_right]
  · simp [haltOf_eq_divisionByZero]
  · simp [haltOf_eq_unknownOpcode]
  · simp only [haltOf_eq_endOfStream, exists_eq_right]
  · rw [step_past_buffer hr hip] at h
    cases h
    rfl

end Sys2Proof.Machine


/-! ## Push and memory instructions (41_push_and_memory.md) -/

namespace Sys2Proof.Machine

/-! ### The frame of a stack update, and what the shared operations leave -/

theorem State.sameRegisters_withStack (s : State) (h : Fin 257) (c : Slots) : SameRegisters s (s.withStack h c) :=
  ⟨rfl, rfl, rfl, rfl, rfl, rfl⟩

theorem State.sameMemory_withStack (s : State) (h : Fin 257) (c : Slots) : SameMemory s (s.withStack h c) :=
  State.withStack_load s h c

/-- Writing one slot leaves every other slot, occupied or not (R24, R27). -/
theorem State.sameSlotsBut_write (s : State) (h : Fin 257) (j : Nat) (v : Word) :
    SameSlotsBut j s (s.withStack h (Cells.write s.slots j v)) := fun k hk => by
  rw [State.slot_withStack, Cells.read_write, if_neg hk]
  rfl

/-- push onto a stack with room: the new stack, and all that stays (R24). -/
theorem push_leaves {s : State} (v : Word) (h : s.h.val < 256) :
    ∃ t, push v s = .go () t ∧ t.occupied = s.occupied ++ [v] ∧ SameRegisters s t ∧ SameMemory s t ∧
      SameSlotsBut s.h.val s t :=
  ⟨_, push_room v h, occupied_push s v (by omega), s.sameRegisters_withStack _ _, s.sameMemory_withStack _ _,
    s.sameSlotsBut_write _ _ _⟩

/-- An operation on the top in place: the new stack, and all that stays (R26, R27). -/
theorem topOp_leaves (op : Word → Word) {s : State} {rest : List Word} {v : Word} (h : s.occupied = rest ++ [v]) :
    ∃ t, topOp op s = .go () t ∧ t.occupied = rest ++ [op v] ∧ SameRegisters s t ∧ SameMemory s t ∧
      SameSlotsBut (s.h.val - 1) s t := by
  obtain ⟨t, ht, hocc, rfl⟩ := topOp_occupied op h
  exact ⟨_, ht, hocc, s.sameRegisters_withStack _ _, s.sameMemory_withStack _ _, s.sameSlotsBut_write _ _ _⟩

/-- Pseudocode that raises a fault answers a next state that records it (R91, R206). -/
theorem faultsWith_of_raise {α : Type} {m : Act α} {f : Fault} {s : State} (h : m = raise f s) :
    FaultsWith f m.outcome := by
  rw [h]
  exact ⟨_, rfl, rfl⟩

/-- An F3 opcode other than JUMP leaves `ip` past its immediate (R77). -/
theorem isF3_consuming {m : Mnemonic} {mk : Imm → Instr} (hm : m.hasImm = true) (hj : m ≠ .jump)
    (hi : ∀ imm, m.instr imm = mk imm) (he : ∀ c imm, encode c (mk imm) = encodeF3 c m imm) : IsF3 m mk 3 := by
  simpa only [if_neg hj] using isF3_of hm hi he

/-! ### The pushing instructions -/

/-- Settles O34: `push` of the zero-extended immediate. -/
theorem pushImmPushesItsImmediate : Obligations.PushImmPushesItsImmediate := by
  refine ⟨isF3_consuming rfl (by decide) (fun _ => rfl) fun _ _ => rfl, fun imm s => ⟨fun hroom => ?_, fun hfull => ?_⟩⟩
  · obtain ⟨t, hpush, hocc, hframe⟩ := push_leaves (zext64 imm) hroom
    have hvalue : (zext64 imm).toNat = imm.toNat := BitVec.toNat_setWidth_of_le (by decide)
    exact ⟨t, zext64 imm, by rw [exec, execPushImm, hpush, Act.outcome_go], hocc, hvalue, hframe⟩
  · exact faultsWith_of_raise (push_full hfull)

/-- Settles O35: `push` of the cell. -/
theorem loadMemImmPushesTheCell : Obligations.LoadMemImmPushesTheCell := by
  refine ⟨isF3_consuming rfl (by decide) (fun _ => rfl) fun _ _ => rfl, fun a s => ⟨fun hroom => ?_, fun hfull => ?_⟩⟩
  · obtain ⟨t, hpush, hleft⟩ := push_leaves (s.load a) hroom
    exact ⟨t, by rw [exec, execLoadMemImm, hpush, Act.outcome_go], hleft⟩
  · exact faultsWith_of_raise (push_full hfull)

/-! ### The cell added into the top -/

/-- Settles O36: `topOp` of the sum with the cell. -/
theorem loadAddMemImmAddsTheCellIntoTheTop : Obligations.LoadAddMemImmAddsTheCellIntoTheTop := by
  refine ⟨isF3_consuming rfl (by decide) (fun _ => rfl) fun _ _ => rfl, fun a s => ⟨fun rest x hs => ?_, fun hzero => ?_⟩⟩
  · obtain ⟨t, htop, hocc, hframe⟩ := topOp_leaves (addCell s a) hs
    exact ⟨t, addCell s a x, by rw [exec, execLoadAddMemImm, htop, Act.outcome_go], hocc, BitVec.toNat_add _ _, hframe⟩
  · exact faultsWith_of_raise (topOp_of_zero _ hzero)

/-! ### The storing and the indirect instructions

A pop writes only `h`, so each state between the pops is `s.withStack n s.slots` for some height n. -/

/-- Two pops: the top, then the slot below it (R25). -/
theorem pop_pop_occupied {s : State} {rest : List Word} {v val : Word} (h : s.occupied = rest ++ [v, val]) :
    ∃ p n, pop s = .go val p ∧ pop p = .go v (s.withStack n s.slots) ∧ (s.withStack n s.slots).occupied = rest := by
  have h' : s.occupied = (rest ++ [v]) ++ [val] := by simpa using h
  obtain ⟨hpop, hocc⟩ := pop_occupied h'
  obtain ⟨hpop', hocc'⟩ := pop_occupied hocc
  exact ⟨_, _, hpop, hpop', hocc'⟩

/-- A second pop on fewer than two slots, or already the first, finds the stack empty (R25). -/
theorem pop_pop_short {α : Type} {s : State} (k : Word → Word → State → Act α) (h : s.h.val < 2) :
    ∃ t, ((pop s).bind fun val p => (pop p).bind (k val)) = raise .stackUnderflow t := by
  obtain ⟨-, hpop⟩ | ⟨hne, hpop⟩ := pop_cases s
  · exact ⟨_, by rw [hpop, Act.bind_raise]⟩
  · have hempty : (s.withStack ⟨s.h.val - 1, by omega⟩ s.slots).h.val = 0 := by
      change s.h.val - 1 = 0
      omega
    exact ⟨_, by rw [hpop, Act.bind_go, pop_of_zero hempty, Act.bind_raise]⟩

/-- A store after pops: the cell, and all that stays since before the pops (R25, R53). -/
theorem State.store_popped_leaves (s : State) (n : Fin 257) (a : Addr) (v : Word) :
    ((s.withStack n s.slots).store a v).load a = v ∧ SameRegisters s ((s.withStack n s.slots).store a v) ∧
      SameMemoryBut a s ((s.withStack n s.slots).store a v) ∧ SameSlots s ((s.withStack n s.slots).store a v) :=
  ⟨State.load_store_same _ a v, State.sameRegisters_store _ a v, State.sameMemoryBut_store _ a v,
    State.sameSlots_store _ a v⟩

/-- The address made from a popped value is the one the state before the pops gives (R54). -/
theorem addrOf_withStack_some {s : State} {n : Fin 257} {c : Slots} {v : Word} {a : Addr}
    (h : addressOf s.config.addressPolicy v = some a) : addrOf v (s.withStack n c) = .go a (s.withStack n c) :=
  addrOf_some h

theorem addrOf_withStack_none {s : State} {n : Fin 257} {c : Slots} {v : Word}
    (h : addressOf s.config.addressPolicy v = none) :
    addrOf v (s.withStack n c) = raise .addressOutOfRange (s.withStack n c) :=
  addrOf_none h

/-- Settles O37: the popped value goes into the cell by one memory write. -/
theorem storeMemImmPopsIntoTheCell : Obligations.StoreMemImmPopsIntoTheCell := by
  refine ⟨isF3_consuming rfl (by decide) (fun _ => rfl) fun _ _ => rfl, fun a s => ⟨fun rest v hs => ?_, fun hzero => ?_⟩⟩
  · obtain ⟨hpop, hocc⟩ := pop_occupied hs
    refine ⟨(s.withStack ⟨s.h.val - 1, by omega⟩ s.slots).store a v, ?_, hocc, s.store_popped_leaves _ a v⟩
    rw [exec, execStoreMemImm, hpop, Act.bind_go, Act.outcome_go]
  · exact faultsWith_of_raise (by rw [pop_of_zero hzero, Act.bind_raise])

/-- Settles O38: pop, AddrOf (`addressOf_eq_some`, `addressOf_eq_none`), and a push into the slot the pop freed. -/
theorem loadIndirectReplacesTheTopWithTheCell : Obligations.LoadIndirectReplacesTheTopWithTheCell := by
  refine ⟨isF1_of rfl rfl fun _ => rfl, fun s => ⟨fun rest v hs hv => ?_, fun rest v hs hp hv => ?_, fun hzero => ?_⟩⟩
  · obtain ⟨hpop, hocc⟩ := pop_occupied hs
    obtain ⟨a, ha, hnat⟩ := addressOf_eq_some hv
    have hroom : s.h.val - 1 < 256 := by omega
    obtain ⟨t, hpush, hres, hframe⟩ := push_leaves (s := s.withStack ⟨_, _⟩ s.slots) (s.load a) hroom
    refine ⟨t, a, ?_, ha, hnat, by rw [hres, hocc], hframe⟩
    rw [exec, execLoadIndirect, hpop, Act.bind_go, addrOf_withStack_some ha, Act.bind_go,
      State.withStack_load, hpush, Act.outcome_go]
  · have hnone := addressOf_eq_none.mpr ⟨hp, hv⟩
    exact faultsWith_of_raise
      (by rw [(pop_occupied hs).1, Act.bind_go, addrOf_withStack_none hnone, Act.bind_raise])
  · exact faultsWith_of_raise (by rw [pop_of_zero hzero, Act.bind_raise])

/-- Settles O39: two pops, AddrOf of the second value, and one memory write of the first. -/
theorem storeIndirectStoresAtThePoppedAddress : Obligations.StoreIndirectStoresAtThePoppedAddress := by
  refine ⟨isF1_of rfl rfl fun _ => rfl,
    fun s => ⟨fun rest v val hs hv => ?_, fun rest v val hs hp hv => ?_, fun hshort => ?_⟩⟩
  · obtain ⟨p, n, hpop, hpop', hocc⟩ := pop_pop_occupied hs
    obtain ⟨a, ha, hnat⟩ := addressOf_eq_some hv
    refine ⟨(s.withStack n s.slots).store a val, a, ?_, ha, hnat, hocc, s.store_popped_leaves n a val⟩
    rw [exec, execStoreIndirect, hpop, Act.bind_go, hpop', Act.bind_go, addrOf_withStack_some ha,
      Act.bind_go, Act.outcome_go]
  · obtain ⟨p, n, hpop, hpop', -⟩ := pop_pop_occupied hs
    have hnone := addressOf_eq_none.mpr ⟨hp, hv⟩
    exact faultsWith_of_raise
      (by rw [hpop, Act.bind_go, hpop', Act.bind_go, addrOf_withStack_none hnone, Act.bind_raise])
  · obtain ⟨t, hraise⟩ := pop_pop_short _ hshort
    exact faultsWith_of_raise hraise

end Sys2Proof.Machine


/-! ## Stack manipulation (42_stack_manipulation.md) -/

namespace Sys2Proof.Machine

/-- Moving the stack height alone is not a slot write: no slot, occupied or not, changes (R25, R29). -/
theorem State.sameSlots_withHeight (s : State) (n : Fin 257) : SameSlots s (s.withStack n s.slots) := fun _ => rfl

/-- pop of a nonempty stack: the shorter stack, and all that stays, the popped slot's value included (R25). -/
theorem pop_leaves {s : State} {rest : List Word} {v : Word} (h : s.occupied = rest ++ [v]) :
    ∃ t, pop s = .go v t ∧ t.occupied = rest ∧ SameRegisters s t ∧ SameMemory s t ∧ SameSlots s t := by
  obtain ⟨hpop, hocc⟩ := pop_occupied h
  exact ⟨_, hpop, hocc, s.sameRegisters_withStack _ _, s.sameMemory_withStack _ _, s.sameSlots_withHeight _⟩

/-- Settles O40: `top` reads the value and `push` writes its copy above it; on a full stack, which is not empty, the read
succeeds and the push faults. -/
theorem dupPushesACopyOfTheTop : Obligations.DupPushesACopyOfTheTop := by
  refine ⟨isF1_of rfl rfl fun _ => rfl, fun s => ⟨fun rest x hs hroom => ?_, fun hzero => ?_, fun hfull => ?_⟩⟩
  · obtain ⟨t, hpush, hocc, hframe⟩ := push_leaves x hroom
    have hcopy : t.occupied = rest ++ [x, x] := by rw [hocc, hs, List.append_assoc, List.singleton_append]
    exact ⟨t, by rw [exec, execDup, top_occupied hs, Act.bind_go, hpush, Act.outcome_go], hcopy, hframe⟩
  · exact faultsWith_of_raise (by rw [top_of_zero hzero, Act.bind_raise])
  · exact faultsWith_of_raise (by rw [top_of_ne_zero (by omega), Act.bind_go, push_full hfull])

/-- Settles O41: `pop` with its value dropped. -/
theorem discardDropsTheTop : Obligations.DiscardDropsTheTop := by
  refine ⟨isF1_of rfl rfl fun _ => rfl, fun s => ⟨fun rest x hs => ?_, fun hzero => ?_⟩⟩
  · obtain ⟨t, hpop, hleft⟩ := pop_leaves hs
    exact ⟨t, by rw [exec, execDiscard, hpop, Act.outcome_go], hleft⟩
  · exact faultsWith_of_raise (pop_of_zero hzero)

end Sys2Proof.Machine


/-! ## Arithmetic (43_arithmetic.md) -/

namespace Sys2Proof.Machine

/-! ### Binary operations, and the values of the operations modulo 2^64 -/

/-- A binary operation on two slots or more: the new stack, and all that stays, the popped slot's value included (R140). -/
theorem binaryOp_leaves (op : Word → Word → Word) {s : State} {rest : List Word} {l r : Word}
    (h : s.occupied = rest ++ [l, r]) :
    ∃ t, binaryOp op s = .go () t ∧ t.occupied = rest ++ [op l r] ∧ SameRegisters s t ∧ SameMemory s t ∧
      SameSlotsBut (s.h.val - 2) s t := by
  obtain ⟨t, ht, hocc, rfl⟩ := binaryOp_occupied op h
  exact ⟨_, ht, hocc, s.sameRegisters_withStack _ _, s.sameMemory_withStack _ _, s.sameSlotsBut_write _ _ _⟩

/-- A binary operation on fewer than two slots records StackUnderflow (R140). -/
theorem binaryOp_underflows (op : Word → Word → Word) {s : State} (h : s.h.val < 2) :
    FaultsWith .stackUnderflow (binaryOp op s).outcome := by
  obtain ⟨_, hraise⟩ := binaryOp_short op h
  exact faultsWith_of_raise hraise

theorem add64_toNat (l r : Word) : (add64 l r).toNat = (l.toNat + r.toNat) % 2 ^ 64 := BitVec.toNat_add l r

theorem mul64_toNat (l r : Word) : (mul64 l r).toNat = l.toNat * r.toNat % 2 ^ 64 := BitVec.toNat_mul l r

/-- Stated over the integers: a difference below 0 wraps around (R8). -/
theorem sub64_toNat (l r : Word) : ((sub64 l r).toNat : Int) = ((l.toNat : Int) - r.toNat) % 2 ^ 64 := by
  have hsub : (sub64 l r).toNat = (2 ^ 64 - r.toNat + l.toNat) % 2 ^ 64 := BitVec.toNat_sub l r
  omega

/-- Zero extension keeps the value (R7). -/
theorem zext64_toNat (imm : Imm) : (zext64 imm).toNat = imm.toNat := BitVec.toNat_setWidth_of_le (by decide)

/-! ### The instructions -/

/-- Settles O42: the three instructions are one `binaryOp` each, with the operations' values modulo 2^64. -/
theorem addSubMulWorkModuloTwoToTheSixtyFour : Obligations.AddSubMulWorkModuloTwoToTheSixtyFour := by
  refine ⟨isF1_of rfl rfl fun _ => rfl, isF1_of rfl rfl fun _ => rfl, isF1_of rfl rfl fun _ => rfl,
    fun s => ⟨fun rest l r hs => ⟨?_, ?_, ?_⟩, fun hshort => ⟨?_, ?_, ?_⟩⟩⟩
  · obtain ⟨t, ht, hocc, hframe⟩ := binaryOp_leaves add64 hs
    exact ⟨t, _, by rw [exec, execAdd, ht, Act.outcome_go], hocc, add64_toNat l r, hframe⟩
  · obtain ⟨t, ht, hocc, hframe⟩ := binaryOp_leaves sub64 hs
    exact ⟨t, _, by rw [exec, execSub, ht, Act.outcome_go], hocc, sub64_toNat l r, hframe⟩
  · obtain ⟨t, ht, hocc, hframe⟩ := binaryOp_leaves mul64 hs
    exact ⟨t, _, by rw [exec, execMul, ht, Act.outcome_go], hocc, mul64_toNat l r, hframe⟩
  · exact binaryOp_underflows add64 hshort
  · exact binaryOp_underflows sub64 hshort
  · exact binaryOp_underflows mul64 hshort

/-- Settles O43: `topOp` of the sum with the zero-extended immediate, which has the immediate's value. -/
theorem addImmAddsIntoTheTop : Obligations.AddImmAddsIntoTheTop := by
  refine ⟨isF3_consuming rfl (by decide) (fun _ => rfl) fun _ _ => rfl, fun imm s => ⟨fun rest x hs => ?_, fun hzero => ?_⟩⟩
  · obtain ⟨t, htop, hocc, hframe⟩ := topOp_leaves (add64 · (zext64 imm)) hs
    have hsum : (add64 x (zext64 imm)).toNat = (x.toNat + imm.toNat) % 2 ^ 64 := by rw [add64_toNat, zext64_toNat]
    exact ⟨t, _, by rw [exec, execAddImm, htop, Act.outcome_go], hocc, hsum, hframe⟩
  · exact faultsWith_of_raise (topOp_of_zero _ hzero)

end Sys2Proof.Machine


/-! ## Control transfer (44_control_transfer.md) -/

namespace Sys2Proof.Machine

/-! ### The condition, and what a conditional jump leaves -/

/-- Any nonzero value counts as true (R151). -/
theorem conditionHolds_eq_true {c : Word} : conditionHolds c = true ↔ c ≠ 0 := decide_eq_true_iff

/-- Only 0 counts as false (R152). -/
theorem conditionHolds_eq_false {c : Word} : conditionHolds c = false ↔ c = 0 := by
  rw [← Bool.not_eq_true, conditionHolds_eq_true, not_not]

/-- A conditional jump on a nonempty stack: the condition is gone whether the jump is taken or not, `ip` follows the test,
and all else stays, the popped slot's value included (R151, R152). -/
theorem conditionalJump_leaves (test : Word → Bool) (target : Imm) {s : State} {rest : List Word} {c : Word}
    (h : s.occupied = rest ++ [c]) :
    ∃ t, conditionalJump test target s = .go () t ∧ t.occupied = rest ∧
      (test c = true → t.ip = target.toNat) ∧ (test c = false → t.ip = s.ip) ∧ t.res = s.res ∧ t.status = s.status ∧
      t.out = s.out ∧ t.code = s.code ∧ t.config = s.config ∧ SameMemory s t ∧ SameSlots s t := by
  obtain ⟨t, hjump, hocc, rfl⟩ := conditionalJump_occupied test target h
  refine ⟨_, hjump, hocc, fun htaken => ?_, fun hnot => ?_, rfl, rfl, rfl, rfl, rfl,
    fun _ => rfl, fun _ => rfl⟩
  · rw [State.withIp_ip, if_pos htaken]
  · rw [State.withIp_ip, hnot, if_neg Bool.false_ne_true]

/-- A conditional jump that finds no condition records StackUnderflow (R151, R152). -/
theorem conditionalJump_underflows (test : Word → Bool) (target : Imm) {s : State} (h : s.h.val = 0) :
    FaultsWith .stackUnderflow (conditionalJump test target s).outcome :=
  faultsWith_of_raise (conditionalJump_of_zero test target h)

/-! ### The instructions -/

/-- Settles O46: the fetch peeks, which advances `ip` by 1 only (R75), and the execution is one write of `ip`. -/
theorem jumpSetsIpToItsTarget : Obligations.JumpSetsIpToItsTarget := by
  refine ⟨?_, fun target s => ⟨jumpTo target s, rfl, rfl, rfl, rfl, rfl, rfl, rfl, rfl, fun _ => rfl, fun _ => rfl⟩⟩
  simpa only [if_true] using isF3_of (m := .jump) (mk := .jump) rfl (fun _ => rfl) fun _ _ => rfl

/-- Settles O47: the conditional jump whose test is that the condition holds. -/
theorem jumpIfTrueJumpsOnANonzeroCondition : Obligations.JumpIfTrueJumpsOnANonzeroCondition := by
  refine ⟨isF3_consuming rfl (by decide) (fun _ => rfl) fun _ _ => rfl,
    fun target s => ⟨fun rest c hs => ?_, conditionalJump_underflows _ target⟩⟩
  obtain ⟨t, hjump, hocc, htaken, hnot, hframe⟩ := conditionalJump_leaves conditionHolds target hs
  exact ⟨t, by rw [exec, execJumpIfTrue, hjump, Act.outcome_go], hocc,
    fun hc => htaken (conditionHolds_eq_true.mpr hc), fun hc => hnot (conditionHolds_eq_false.mpr hc), hframe⟩

/-- Settles O48: the conditional jump whose test is that the condition does not hold. -/
theorem jumpIfFalseJumpsOnAZeroCondition : Obligations.JumpIfFalseJumpsOnAZeroCondition := by
  refine ⟨isF3_consuming rfl (by decide) (fun _ => rfl) fun _ _ => rfl,
    fun target s => ⟨fun rest c hs => ?_, conditionalJump_underflows _ target⟩⟩
  obtain ⟨t, hjump, hocc, htaken, hnot, hframe⟩ := conditionalJump_leaves (fun c => !conditionHolds c) target hs
  simp only [Bool.not_eq_true', Bool.not_eq_false', conditionHolds_eq_true, conditionHolds_eq_false] at htaken hnot
  exact ⟨t, by rw [exec, execJumpIfFalse, hjump, Act.outcome_go], hocc, htaken, hnot, hframe⟩

end Sys2Proof.Machine


/-! ## Comparison (45_comparison.md) -/

namespace Sys2Proof.Machine

/-! ### The result of a comparison -/

/-- bool64 of a test that decides `p` is 1 where `p` holds and 0 where it does not (R8, R160). -/
theorem bool64_of_iff {c : Bool} {p : Prop} (h : c = true ↔ p) : (p → bool64 c = 1) ∧ (¬p → bool64 c = 0) :=
  ⟨fun hp => if_pos (h.mpr hp), fun hp => if_neg (mt h.mp hp)⟩

/-- The comparison with a zero-extended immediate decides the relation with the immediate's value (R166). -/
theorem cmpGreaterOrEqual_zext64 (x : Word) (imm : Imm) :
    cmpGreaterOrEqual x (zext64 imm) = true ↔ x.toNat ≥ imm.toNat := by
  rw [cmpGreaterOrEqual, zext64_toNat, decide_eq_true_iff]

/-! ### The instructions -/

/-- An instruction that runs one stack-stack comparison: if its test decides the relation `holds` of the unsigned values, it
leaves 1 or 0 by that relation, and all else stays; on fewer than two slots it records StackUnderflow (R160). -/
theorem exec_comparison {i : Instr} {cmp : Word → Word → Bool} {holds : Nat → Nat → Prop}
    (hi : ∀ s, exec i s = (compareOp cmp s).outcome) (hcmp : ∀ l r, cmp l r = true ↔ holds l.toNat r.toNat) (s : State) :
    (∀ rest l r, s.occupied = rest ++ [l, r] → ∃ t x, exec i s = .next t ∧ t.occupied = rest ++ [x] ∧
      (holds l.toNat r.toNat → x = 1) ∧ (¬holds l.toNat r.toNat → x = 0) ∧
      SameRegisters s t ∧ SameMemory s t ∧ SameSlotsBut (s.h.val - 2) s t) ∧
    (s.h.val < 2 → FaultsWith .stackUnderflow (exec i s)) := by
  rw [hi, compareOp]
  refine ⟨fun rest l r hs => ?_, binaryOp_underflows _⟩
  obtain ⟨t, ht, hocc, hframe⟩ := binaryOp_leaves (fun l r => bool64 (cmp l r)) hs
  obtain ⟨hone, hzero⟩ := bool64_of_iff (hcmp l r)
  exact ⟨t, bool64 (cmp l r), by rw [ht, Act.outcome_go], hocc, hone, hzero, hframe⟩

/-- Settles O50: each instruction runs one stack-stack comparison, and its test is the decision of its relation. -/
theorem stackComparisonsLeaveZeroOrOne : Obligations.StackComparisonsLeaveZeroOrOne := by
  refine ⟨isF1_of rfl rfl fun _ => rfl, isF1_of rfl rfl fun _ => rfl, isF1_of rfl rfl fun _ => rfl,
    isF1_of rfl rfl fun _ => rfl, isF1_of rfl rfl fun _ => rfl, ?_⟩
  rintro i holds (⟨rfl, rfl⟩ | ⟨rfl, rfl⟩ | ⟨rfl, rfl⟩ | ⟨rfl, rfl⟩ | ⟨rfl, rfl⟩)
  · exact exec_comparison (cmp := cmpEqual) (fun _ => rfl) fun _ _ => decide_eq_true_iff
  · exact exec_comparison (cmp := cmpLess) (fun _ => rfl) fun _ _ => decide_eq_true_iff
  · exact exec_comparison (cmp := cmpLessOrEqual) (fun _ => rfl) fun _ _ => decide_eq_true_iff
  · exact exec_comparison (cmp := cmpGreater) (fun _ => rfl) fun _ _ => decide_eq_true_iff
  · exact exec_comparison (cmp := cmpGreaterOrEqual) (fun _ => rfl) fun _ _ => decide_eq_true_iff

/-- Settles O51: `topOp` of the comparison with the zero-extended immediate, which has the immediate's value. -/
theorem greaterOrEqualImmReplacesTheTop : Obligations.GreaterOrEqualImmReplacesTheTop := by
  refine ⟨isF3_consuming rfl (by decide) (fun _ => rfl) fun _ _ => rfl, fun imm s => ⟨fun rest x hs => ?_, fun hzero => ?_⟩⟩
  · obtain ⟨t, htop, hocc, hframe⟩ := topOp_leaves (fun x => bool64 (cmpGreaterOrEqual x (zext64 imm))) hs
    obtain ⟨hge, hnot⟩ := bool64_of_iff (cmpGreaterOrEqual_zext64 x imm)
    exact ⟨t, _, by rw [exec, execGreaterOrEqualImm, htop, Act.outcome_go], hocc, hge,
      fun hlt => hnot (Nat.not_le.mpr hlt), hframe⟩
  · exact faultsWith_of_raise (topOp_of_zero _ hzero)

end Sys2Proof.Machine


/-! ## Result, output and termination (46_result_output_termination.md) -/

namespace Sys2Proof.Machine

/-! ### The result register and the output sink -/

theorem StackAndStatus.res_eq {s t : State} (h : StackAndStatus s t) : t.res = s.res := by
  obtain ⟨_, _, _, rfl, -⟩ := h
  rfl

/-- Only POP_RESULT writes `res` (R35, R170). -/
theorem exec_res_of_ne_popResult {i : Instr} {s t : State} (hi : i ≠ .popResult) (h : exec i s = .next t) :
    t.res = s.res := by
  obtain hs | ⟨u, _, _, hs, rfl, -⟩ | ⟨hpop, -⟩ | ⟨-, u, _, hs, rfl⟩ | ⟨u, _, hs, rfl, -⟩ := exec_cases h
  · exact hs.res_eq
  · exact hs.res_eq
  · exact absurd hpop hi
  · exact hs.res_eq
  · exact hs.res_eq

/-- An emitted value adds its line to the text the sink has received (R67). -/
theorem State.outputText_of_out_append {s t : State} {v : Word} (h : t.out = s.out ++ [v]) :
    t.outputText = s.outputText ++ renderLine v := by
  rw [State.outputText, h, List.flatMap_append, List.flatMap_singleton, State.outputText]

/-- PRINT on an empty stack records StackUnderflow and changes nothing else (R172). -/
theorem exec_print_of_zero {s : State} (h : s.h.val = 0) :
    exec .print s = .next (s.withStatus (.faulted .stackUnderflow)) := by
  rw [exec, execPrint, pop_of_zero h, Act.bind_raise, Act.outcome_raise]

/-- Settles O52: `pop` and one write of `res`; every other instruction leaves `res` (`exec_res_of_ne_popResult`). -/
theorem popResultPopsIntoTheResultRegister : Obligations.PopResultPopsIntoTheResultRegister := by
  refine ⟨isF1_of rfl rfl fun _ => rfl, fun s => ⟨fun rest v hs => ?_, fun hzero => ?_,
    fun _ _ => exec_res_of_ne_popResult⟩⟩
  · obtain ⟨t, hpop, hocc, ⟨hip, -, hstatus, hout, hcode, hconfig⟩, hmem, hslots⟩ := pop_leaves hs
    exact ⟨t.withRes v, by rw [exec, execPopResult, hpop, Act.bind_go, Act.outcome_go], hocc, rfl,
      hip, hstatus, hout, hcode, hconfig, hmem, hslots⟩
  · exact ⟨_, exec_popResult_of_zero hzero, rfl⟩

/-- Settles O53: `pop` and one Emit; on an empty stack the fault comes before the Emit. -/
theorem printPopsAndEmits : Obligations.PrintPopsAndEmits := by
  refine ⟨isF1_of rfl rfl fun _ => rfl, fun s => ⟨fun rest v hs => ?_, fun hzero => ?_⟩⟩
  · obtain ⟨t, hpop, hocc, ⟨hip, hres, hstatus, hout, hcode, hconfig⟩, hmem, hslots⟩ := pop_leaves hs
    have hemit : (t.emit v).out = s.out ++ [v] := by rw [State.emit, State.withOut_out, hout]
    exact ⟨t.emit v, by rw [exec, execPrint, hpop, Act.bind_go, Act.outcome_go], hocc, hemit,
      State.outputText_of_out_append hemit, hip, hres, hstatus, hcode, hconfig, hmem, hslots⟩
  · exact ⟨_, exec_print_of_zero hzero, rfl, rfl⟩

/-! ### The ends of a launch -/

/-- Settles O54: each of the three writes the status alone, no other instruction has its outcome (`exec_halted_iff`), and
an undefined byte's table entry is the fallback, whose step reads that byte only (`step_fallback`). -/
theorem doneAbortAndUndefinedBytesEndTheLaunch : Obligations.DoneAbortAndUndefinedBytesEndTheLaunch := by
  refine ⟨isF1_of rfl rfl fun _ => rfl, isF1_of rfl rfl fun _ => rfl, fun s => ⟨rfl, rfl, fun _ => rfl⟩,
    fun i s t hr h => ?_, fun s b hr hb hundef hw => ?_⟩
  · exact ⟨fun hst => haltOf_eq_success.mp ((exec_halted_iff hr h).mp hst),
      fun hst => haltOf_eq_endOfStream.mp ((exec_halted_iff hr h).mp hst),
      fun hst => haltOf_eq_unknownOpcode.mp ((exec_halted_iff hr h).mp hst)⟩
  · exact step_fallback hr hw hb ((dispatchTable_eq_fallback_iff hw b).mpr hundef)

end Sys2Proof.Machine


/-! ## Exceptions: when a launch ends in Success, and when DIV halts it (60_exceptions.md R202, R205) -/

namespace Sys2Proof.Machine

/-! ### What watching a launch shows -/

/-- A caller sees an outcome exactly in a state that has recorded it (R99). -/
theorem viewOf_eq_returned {s t : State} {o : RunOutcome} : viewOf s = .returned o t ↔ s.status = .halted o ∧ s = t := by
  cases h : s.status <;> simp [viewOf, h]

/-- Watching a launch for n steps that are all taken shows the state they lead to. -/
theorem runLoop_of_stepsTo {n : Nat} {s t : State} (h : StepsTo n s t) : runLoop n s = viewOf t := by
  induction n generalizing s with
  | zero => rw [stepsTo_zero.mp h, runLoop]
  | succ n ih =>
    obtain ⟨u, hstep, hrun⟩ := stepsTo_succ.mp h
    simp only [runLoop, hstep, ih hrun]

/-- What watching a launch shows is a state that some number of its steps reaches. -/
theorem runLoop_reaches (fuel : Nat) (s : State) : ∃ n t, StepsTo n s t ∧ runLoop fuel s = viewOf t := by
  induction fuel generalizing s with
  | zero => exact ⟨0, s, stepsTo_zero.mpr rfl, rfl⟩
  | succ fuel ih =>
    cases hstep : step s with
    | next u =>
      obtain ⟨n, t, hrun, hview⟩ := ih u
      exact ⟨n + 1, t, stepsTo_succ.mpr ⟨u, hstep, hrun⟩, by simp only [runLoop, hstep, hview]⟩
    | fault f => exact ⟨0, s, stepsTo_zero.mpr rfl, by simp only [runLoop, hstep]⟩
    | refused r => exact ⟨0, s, stepsTo_zero.mpr rfl, by simp only [runLoop, hstep]⟩

/-- A launch returns an outcome exactly when some number of its steps reaches a state that has recorded it (R99). -/
theorem interpret_returns_iff {s s₀ : State} {code : List Byte} {o : RunOutcome} (h : launch code s = some s₀) :
    (∃ n t, interpret n code s = some (.returned o t)) ↔ ∃ n t, StepsTo n s₀ t ∧ t.status = .halted o := by
  simp only [interpret, h, Option.map_some, Option.some_inj]
  constructor
  · rintro ⟨fuel, t, hloop⟩
    obtain ⟨n, u, hrun, hview⟩ := runLoop_reaches fuel s₀
    exact ⟨n, u, hrun, (viewOf_eq_returned.mp (hview ▸ hloop)).1⟩
  · rintro ⟨n, t, hrun, hst⟩
    exact ⟨n, t, by rw [runLoop_of_stepsTo hrun, viewOf_eq_returned.mpr ⟨hst, rfl⟩]⟩

/-- From a running state, an outcome is reached exactly by a last step that records it. -/
theorem stepsTo_halted_iff {s : State} {o : RunOutcome} (hr : s.status = .running) :
    (∃ n t, StepsTo n s t ∧ t.status = .halted o) ↔
      ∃ n u t, StepsTo n s u ∧ step u = .next t ∧ t.status = .halted o := by
  constructor
  · rintro ⟨n, t, hrun, hst⟩
    cases n with
    | zero =>
      rw [← stepsTo_zero.mp hrun, hr] at hst
      cases hst
    | succ n =>
      obtain ⟨u, hrun, hstep⟩ := stepsTo_succ_last.mp hrun
      exact ⟨n, u, t, hrun, hstep, hst⟩
  · rintro ⟨n, u, t, hrun, hstep, hst⟩
    exact ⟨n + 1, t, stepsTo_succ_last.mpr ⟨u, hrun, hstep⟩, hst⟩

/-- The next step records Success exactly when the next instruction is DONE (R171, R205). -/
theorem step_success_iff {u : State} :
    (∃ t, step u = .next t ∧ t.status = .halted .success) ↔ ∃ v, nextInstr u = some (.done, v) := by
  constructor
  · rintro ⟨t, hstep, hst⟩
    obtain ⟨v, i, hf, hi⟩ := (step_halted_iff hstep).mp hst
    rw [haltOf_eq_success.mp hi] at hf
    exact ⟨v, nextInstr_eq_some.mpr ⟨running_of_step hstep, hf⟩⟩
  · rintro ⟨v, hnext⟩
    obtain ⟨hr, hf⟩ := nextInstr_eq_some.mp hnext
    exact ⟨_, step_go hr hf, rfl⟩

/-- Settles O15: an outcome is returned exactly when a last step records it (`interpret_returns_iff`, `stepsTo_halted_iff`),
and the step that records Success is DONE's (`step_success_iff`). -/
theorem successExactlyWhenDoneIsReached : Obligations.SuccessExactlyWhenDoneIsReached := by
  intro s s₀ code hlaunch
  have hr : s₀.status = .running := by rw [launch_some hlaunch]; rfl
  rw [interpret_returns_iff hlaunch, stepsTo_halted_iff hr]
  simp only [exists_and_left, step_success_iff]

/-! ### The zero divisor -/

/-- Settles O44: DIV halts exactly as its `haltOf` says (`exec_halted_iff`), by the top; on a zero divisor it is `pop` and
one write of the status (`execDiv_of_zero_divisor`), and a halted machine does not step. -/
theorem divHaltsExactlyOnAZeroDivisor : Obligations.DivHaltsExactlyOnAZeroDivisor := by
  refine fun s hr => ⟨fun rest r hs => ?_, fun rest hs => ?_⟩
  · have hzero : haltOf .div s = some .divisionByZero ↔ r = 0 := by simp [haltOf, hs]
    obtain ⟨t, hexec⟩ := exec_answers_next .div s
    simp only [hexec, Host.Outcome.next.injEq, exists_eq_left', exec_halted_iff hr hexec, hzero]
  · have hexec := execDiv_of_zero_divisor (List.getLast?_eq_some_iff.mpr ⟨rest, hs⟩)
    refine ⟨_, hexec, rfl, (pop_occupied hs).2, rfl, rfl, rfl, rfl, rfl, fun _ => rfl, fun _ => rfl, fun u hstep => ?_⟩
    cases running_of_step hstep

end Sys2Proof.Machine


/-! ## Encoding: the decoder and the encoder are inverses of each other (30_encoding.md R70 to R72, R79 to R82) -/

namespace Sys2Proof

/-! ### The encoding of a mnemonic's instruction -/

/-- An instruction is a mnemonic with an immediate, or an undefined byte (R72, R80). -/
theorem Instr.eq_instr_or_undefined (i : Instr) : (∃ m imm, i = Mnemonic.instr m imm) ∨ ∃ b, i = .undefined b := by
  cases i with
  | abort => exact .inl ⟨.abort, 0, rfl⟩
  | pushImm imm => exact .inl ⟨.pushImm, imm, rfl⟩
  | loadMemImm a => exact .inl ⟨.loadMemImm, a, rfl⟩
  | loadAddMemImm a => exact .inl ⟨.loadAddMemImm, a, rfl⟩
  | storeMemImm a => exact .inl ⟨.storeMemImm, a, rfl⟩
  | loadIndirect => exact .inl ⟨.loadIndirect, 0, rfl⟩
  | storeIndirect => exact .inl ⟨.storeIndirect, 0, rfl⟩
  | dup => exact .inl ⟨.dup, 0, rfl⟩
  | discard => exact .inl ⟨.discard, 0, rfl⟩
  | add => exact .inl ⟨.add, 0, rfl⟩
  | addImm imm => exact .inl ⟨.addImm, imm, rfl⟩
  | sub => exact .inl ⟨.sub, 0, rfl⟩
  | div => exact .inl ⟨.div, 0, rfl⟩
  | mul => exact .inl ⟨.mul, 0, rfl⟩
  | jump t => exact .inl ⟨.jump, t, rfl⟩
  | jumpIfTrue t => exact .inl ⟨.jumpIfTrue, t, rfl⟩
  | jumpIfFalse t => exact .inl ⟨.jumpIfFalse, t, rfl⟩
  | equal => exact .inl ⟨.equal, 0, rfl⟩
  | less => exact .inl ⟨.less, 0, rfl⟩
  | lessOrEqual => exact .inl ⟨.lessOrEqual, 0, rfl⟩
  | greater => exact .inl ⟨.greater, 0, rfl⟩
  | greaterOrEqual => exact .inl ⟨.greaterOrEqual, 0, rfl⟩
  | greaterOrEqualImm imm => exact .inl ⟨.greaterOrEqualImm, imm, rfl⟩
  | popResult => exact .inl ⟨.popResult, 0, rfl⟩
  | done => exact .inl ⟨.done, 0, rfl⟩
  | print => exact .inl ⟨.print, 0, rfl⟩
  | undefined b => exact .inr ⟨b, rfl⟩

/-- A mnemonic's instruction is encoded in the mnemonic's format (R72). -/
theorem encode_instr (c : Config) (m : Mnemonic) (imm : Imm) :
    encode c (m.instr imm) = if m.hasImm then encodeF3 c m imm else encodeF1 c m := by cases m <;> rfl

/-- An F1 instruction carries no immediate (R72). -/
theorem Mnemonic.instr_of_not_hasImm {m : Mnemonic} (hm : m.hasImm = false) (imm : Imm) : m.instr imm = m.instr 0 := by
  revert hm
  cases m <;> simp [Mnemonic.hasImm, Mnemonic.instr]

/-- Only an undefined byte's instruction has a condition on its well-formedness (R80, R82). -/
theorem Mnemonic.instr_wellFormed (c : Config) (m : Mnemonic) (imm : Imm) : (m.instr imm).wellFormed c = true := by
  cases m <;> rfl

/-! ### Decoding by the opcode byte -/

theorem decodeOpcode_opcodeValue {c : Config} (h : c.wellFormed = true) (m : Mnemonic) :
    decodeOpcode c (c.opcodeValue m) = some m := by
  rw [decodeOpcode_eq_decodeDirect h, decodeDirect_opcodeValue h]

theorem opcodeValue_of_decodeOpcode {c : Config} (h : c.wellFormed = true) {b : Byte} {m : Mnemonic}
    (hd : decodeOpcode c b = some m) : c.opcodeValue m = b :=
  decodeDirect_value (by rwa [decodeOpcode_eq_decodeDirect h] at hd)

theorem decodeOpcode_eq_none {c : Config} (h : c.wellFormed = true) {b : Byte} :
    decodeOpcode c b = none ↔ c.isUndefinedByte b = true := by
  rw [decodeOpcode_eq_decodeDirect h, decodeDirect_none]

/-- Decode of a byte that no mnemonic has (R80). -/
theorem decode_undefined {c : Config} {b : Byte} (hd : decodeOpcode c b = none) (rest : List Byte) :
    decode c (b :: rest) = .ok (.undefined b, rest) := by simp only [decode, hd]

/-- Decode of an F1 opcode byte (R71, R72). -/
theorem decode_f1 {c : Config} {b : Byte} {m : Mnemonic} (hd : decodeOpcode c b = some m) (hm : m.hasImm = false)
    (rest : List Byte) : decode c (b :: rest) = .ok (m.instr 0, rest) := by
  simp only [decode, hd, hm, Bool.false_eq_true, if_false]

/-- Decode of an F3 opcode byte with its immediate (R71, R72, R74). -/
theorem decode_f3 {c : Config} {b : Byte} {m : Mnemonic} (hd : decodeOpcode c b = some m) (hm : m.hasImm = true)
    (hi lo : Byte) (rest : List Byte) :
    decode c (b :: hi :: lo :: rest) = .ok (m.instr (joinImm hi lo), rest) := by
  simp only [decode, hd, hm, if_true]

/-- What the decoder accepts, by the format of the first byte's opcode (R70 to R72, R80). -/
theorem decode_cases {c : Config} {bs rest : List Byte} {i : Instr} (h : decode c bs = .ok (i, rest)) :
    (∃ b, bs = b :: rest ∧ decodeOpcode c b = none ∧ i = .undefined b) ∨
    (∃ b m, bs = b :: rest ∧ decodeOpcode c b = some m ∧ m.hasImm = false ∧ i = m.instr 0) ∨
    (∃ b m hi lo, bs = b :: hi :: lo :: rest ∧ decodeOpcode c b = some m ∧ m.hasImm = true ∧
      i = m.instr (joinImm hi lo)) := by
  match bs with
  | [] => cases h
  | b :: bs =>
    cases hd : decodeOpcode c b with
    | none =>
      rw [decode_undefined hd] at h
      cases h
      exact .inl ⟨b, rfl, hd, rfl⟩
    | some m =>
      cases hm : m.hasImm with
      | false =>
        rw [decode_f1 hd hm] at h
        cases h
        exact .inr (.inl ⟨b, m, rfl, hd, hm, rfl⟩)
      | true =>
        match bs with
        | [] => simp [decode, hd, hm] at h
        | [_] => simp [decode, hd, hm] at h
        | hi :: lo :: bs =>
          rw [decode_f3 hd hm] at h
          cases h
          exact .inr (.inr ⟨b, m, hi, lo, rfl, hd, hm, rfl⟩)

/-! ### The round trips -/

/-- Settles O3: a mnemonic's encoding starts with the byte that decodes to the mnemonic, and its format says what follows;
an undefined byte decodes to itself. -/
theorem decodingAnEncodedInstructionGivesItBack : Obligations.DecodingAnEncodedInstructionGivesItBack := by
  intro c i rest hc hi
  obtain ⟨m, imm, rfl⟩ | ⟨b, rfl⟩ := i.eq_instr_or_undefined
  · have hd := decodeOpcode_opcodeValue hc m
    rw [encode_instr]
    cases hm : m.hasImm with
    | false => exact (decode_f1 hd hm rest).trans (by rw [m.instr_of_not_hasImm hm imm])
    | true => exact (decode_f3 hd hm _ _ rest).trans (by rw [joinImm_halves])
  · exact decode_undefined ((decodeOpcode_eq_none hc).mpr hi) rest

/-- Settles O4: the opcode byte the decoder accepted is the value of the mnemonic it found, and the halves of the immediate
it joined are the bytes it read. -/
theorem encodingADecodedInstructionGivesItsBytes : Obligations.EncodingADecodedInstructionGivesItsBytes := by
  intro c bs rest i hc h
  obtain ⟨b, rfl, hd, rfl⟩ | ⟨b, m, rfl, hd, hm, rfl⟩ | ⟨b, m, hi, lo, rfl, hd, hm, rfl⟩ := decode_cases h
  · exact ⟨rfl, (decodeOpcode_eq_none hc).mp hd⟩
  · refine ⟨?_, m.instr_wellFormed c _⟩
    rw [encode_instr, hm, ← opcodeValue_of_decodeOpcode hc hd]
    rfl
  · refine ⟨?_, m.instr_wellFormed c _⟩
    rw [encode_instr, hm, if_pos rfl, encodeF3, immHigh_joinImm, immLow_joinImm, opcodeValue_of_decodeOpcode hc hd]
    rfl

/-! ### The default opcode values -/

/-- Settles O1: the decoder evaluates each sequence. -/
theorem wordsWrittenOutFromTheFormatsDecode : Obligations.WordsWrittenOutFromTheFormatsDecode :=
  ⟨rfl, rfl, rfl, rfl, rfl, rfl, rfl, rfl, rfl⟩

/-- The default table assigns the first 26 bytes in order (R79). -/
theorem map_opcodeValue_defaultConfig :
    Mnemonic.all.map defaultConfig.opcodeValue = (List.range 26).map (BitVec.ofNat 8) := by decide

/-- A byte is undefined when it is not among the assigned values (R80). -/
theorem Config.isUndefinedByte_iff_not_mem {c : Config} {b : Byte} :
    c.isUndefinedByte b = true ↔ b ∉ Mnemonic.all.map c.opcodeValue := by
  simp [Config.isUndefinedByte]

theorem mem_map_ofNat_range {n : Nat} (hn : n ≤ 256) {b : Byte} :
    b ∈ (List.range n).map (BitVec.ofNat 8) ↔ b.toNat < n := by
  simp only [List.mem_map, List.mem_range]
  constructor
  · rintro ⟨k, hk, rfl⟩
    rwa [BitVec.toNat_ofNat, Nat.mod_eq_of_lt (by omega)]
  · exact fun hb => ⟨b.toNat, hb, BitVec.ofNat_toNat .. |>.trans (BitVec.setWidth_eq b)⟩

/-- Settles O2: a byte is undefined exactly when it is not among the 26 assigned values. -/
theorem defaultOpcodeValuesAreTheTables : Obligations.DefaultOpcodeValuesAreTheTables := by
  refine ⟨map_opcodeValue_defaultConfig, rfl, fun b => ?_⟩
  rw [Config.isUndefinedByte_iff_not_mem, map_opcodeValue_defaultConfig, mem_map_ofNat_range (by decide), Nat.not_lt]

end Sys2Proof


/-! ## The invariant, and what no step changes (10_state.md R22, R32, R38; 20_memory.md R51, R56, R67) -/

namespace Sys2Proof.Machine

/-! ### The invariant -/

theorem StackAndStatus.slots_wf {s t : State} (h : StackAndStatus s t) (hs : Slots.wf s.slots = true) :
    Slots.wf t.slots = true := by
  obtain ⟨_, _, _, rfl, hw⟩ := h
  exact hw hs

theorem StackAndStatus.mem_eq {s t : State} (h : StackAndStatus s t) : t.mem = s.mem := by
  obtain ⟨_, _, _, rfl, -⟩ := h
  rfl

/-- An instruction keeps the canonical form of both arrays (R22, R51). -/
theorem exec_arrays_wf {i : Instr} {s t : State} (h : exec i s = .next t) (hs : Slots.wf s.slots = true)
    (hm : Memory.wf s.mem = true) : Slots.wf t.slots = true ∧ Memory.wf t.mem = true := by
  have hstack (u : State) (hu : StackAndStatus s u) : Slots.wf u.slots = true ∧ Memory.wf u.mem = true :=
    ⟨hu.slots_wf hs, by rw [hu.mem_eq, hm]⟩
  obtain hu | ⟨u, a, v, hu, rfl, -⟩ | ⟨-, u, v, hu, rfl⟩ | ⟨-, u, v, hu, rfl⟩ | ⟨u, target, hu, rfl, -⟩ := exec_cases h
  · exact hstack t hu
  · exact ⟨(hstack u hu).1, State.store_wf a v (hstack u hu).2⟩
  · exact hstack u hu
  · exact hstack u hu
  · exact hstack u hu

/-- An instruction keeps R32's bound: `ip` stays, or becomes a 16-bit target. -/
theorem exec_ip_le {i : Instr} {s t : State} (h : exec i s = .next t) (hip : s.ip ≤ max s.code.length 65535) :
    t.ip ≤ max t.code.length 65535 := by
  rw [(exec_config_code h).2]
  obtain heq | ⟨target, -, heq⟩ := exec_ip h
  · rwa [heq]
  · have := target.isLt
    omega

theorem exec_keeps_inv {i : Instr} {s t : State} (h : exec i s = .next t) (hs : s.Inv) : t.Inv := by
  obtain ⟨hslots, hmem, hip⟩ := hs
  obtain ⟨hslots', hmem'⟩ := exec_arrays_wf h hslots hmem
  exact ⟨hslots', hmem', exec_ip_le h hip⟩

/-- A step keeps the invariant: a fetch that goes on leaves `ip` within the buffer or just past it, and so does one that
faults. -/
theorem step_keeps_inv {s t : State} (h : step s = .next t) (hs : s.Inv) : t.Inv := by
  obtain ⟨hslots, hmem, hip⟩ := hs
  obtain ⟨i, n, -, hn, hexec⟩ | ⟨n, hn, hlt, rfl⟩ := step_cases h
  · exact exec_keeps_inv hexec ⟨hslots, hmem, le_max_of_le_left hn⟩
  · refine ⟨hslots, hmem, ?_⟩
    change s.ip + n ≤ max s.code.length 65535
    omega

/-- The launch reset meets the invariant whatever the code: both arrays are empty and `ip` is 0 (R41). -/
theorem State.inv_launchReset (s : State) (code : List Byte) : (s.launchReset.withCode code).Inv :=
  ⟨rfl, rfl, Nat.zero_le _⟩

/-- Settles O21: a step fetches and executes (`step_keeps_inv`), and a launch resets (`State.inv_launchReset`). -/
theorem everyStepKeepsTheInvariant : Obligations.EveryStepKeepsTheInvariant := by
  refine ⟨fun s t hs h => step_keeps_inv h hs, fun s t code h => ?_⟩
  rw [launch_some h]
  exact s.inv_launchReset code

/-- Settles O20: the reset state is a launch reset, and power-on differs from it in the status alone. -/
theorem resetStateMeetsTheInvariant : Obligations.ResetStateMeetsTheInvariant :=
  ⟨State.reset.inv_launchReset [], State.reset.inv_launchReset []⟩

/-! ### The configuration and the code buffer -/

/-- No step changes the code buffer (R56). -/
theorem step_code {s t : State} (h : step s = .next t) : t.code = s.code := by
  obtain ⟨i, n, -, -, hexec⟩ | ⟨n, -, -, rfl⟩ := step_cases h
  · exact (exec_config_code hexec).2
  · rfl

/-- Settles O22: neither the fetch nor an instruction writes them (`step_config`, `step_code`), and the launch reset leaves
the configuration. -/
theorem configurationAndCodeAreConstant : Obligations.ConfigurationAndCodeAreConstant :=
  ⟨fun _ _ h => ⟨step_config h, step_code h⟩, fun _ _ _ h => by rw [launch_some h]; rfl⟩

/-! ### The output -/

/-- Earlier events put before `out` are an update that no primitive reads or undoes (R67). -/
theorem unread_prependOut (earlier : List Word) : Unread (fun t => t.withOut (earlier ++ t.out)) where
  h _ := rfl
  slots _ := rfl
  mem _ := rfl
  policy _ := rfl
  withStack _ _ _ := rfl
  withMem _ _ := rfl
  withStatus _ _ := rfl
  withIp _ _ := rfl
  emit s v := congrArg s.withOut (List.append_assoc earlier s.out [v]).symm

/-- What PRINT appends is the popped top, if there is one (R172). -/
theorem exec_print_appends {s t : State} (h : exec .print s = .next t) :
    t.out = s.out ∨ ∃ rest v, s.occupied = rest ++ [v] ∧ t.out = s.out ++ [v] := by
  have hout := exec_print_out h
  cases hlast : s.occupied.getLast? with
  | none =>
    rw [hlast] at hout
    exact .inl (hout.trans (List.append_nil _))
  | some v =>
    obtain ⟨rest, hocc⟩ := List.getLast?_eq_some_iff.mp hlast
    rw [hlast] at hout
    exact .inr ⟨rest, v, hocc, hout⟩

/-- Settles O26: the earlier events are unread, so every instruction commutes with putting them before `out`; only PRINT
changes `out` (`exec_out_of_ne_print`), and it appends the top. -/
theorem outputIsAppendOnlyAndNeverReadBack : Obligations.OutputIsAppendOnlyAndNeverReadBack := by
  refine ⟨fun i s earlier => (unread_prependOut earlier).exec_of_withRes (fun _ _ => rfl) i s, fun i s t h => ?_⟩
  by_cases hi : i = .print
  · subst hi
    exact (exec_print_appends h).imp_right fun happ => ⟨rfl, happ⟩
  · exact .inl (exec_out_of_ne_print hi h)

end Sys2Proof.Machine


/-! ## The contents of unoccupied slots are never observed (10_state.md R29) -/

namespace Sys2Proof.Machine

/-! ### States that differ at most in unoccupied slots -/

/-- Two such states have another slot list, and nothing else, between them. -/
theorem sameButUnoccupied_iff {s s' : State} :
    SameButUnoccupied s s' ↔ ∃ c, s' = s.withStack s.h c ∧ ∀ k < s.h.val, Cells.read c k = s.slot k := by
  constructor
  · rintro ⟨hip, hh, hslots, hmem, hres, hstatus, hout, hcode, hconfig⟩
    refine ⟨s'.slots, ?_, hslots⟩
    cases s'
    simp only at hip hh hmem hres hstatus hout hcode hconfig
    subst hip hh hmem hres hstatus hout hcode hconfig
    rfl
  · rintro ⟨c, rfl, hslots⟩
    exact ⟨rfl, rfl, hslots, rfl, rfl, rfl, rfl, rfl, rfl⟩

namespace SameButUnoccupied

/-- An update that leaves the stack alone, and does the same whatever the slots, keeps the relation. -/
theorem map {s s' : State} (f : State → State) (hs : SameButUnoccupied s s') (hh : (f s).h = s.h)
    (hslots : (f s).slots = s.slots) (hf : ∀ c, f (s.withStack s.h c) = (f s).withStack s.h c) :
    SameButUnoccupied (f s) (f s') := by
  obtain ⟨c, rfl, hc⟩ := sameButUnoccupied_iff.mp hs
  refine sameButUnoccupied_iff.mpr ⟨c, by rw [hf, hh], fun k hk => ?_⟩
  rw [hh] at hk
  rw [hc k hk, State.slot, State.slot, hslots]

theorem withIp {s s' : State} (hs : SameButUnoccupied s s') (ip : Nat) : SameButUnoccupied (s.withIp ip) (s'.withIp ip) :=
  hs.map (·.withIp ip) rfl rfl fun _ => rfl

theorem withStatus {s s' : State} (hs : SameButUnoccupied s s') (st : Status) :
    SameButUnoccupied (s.withStatus st) (s'.withStatus st) := hs.map (·.withStatus st) rfl rfl fun _ => rfl

theorem withRes {s s' : State} (hs : SameButUnoccupied s s') (v : Word) :
    SameButUnoccupied (s.withRes v) (s'.withRes v) := hs.map (·.withRes v) rfl rfl fun _ => rfl

theorem emit {s s' : State} (hs : SameButUnoccupied s s') (v : Word) : SameButUnoccupied (s.emit v) (s'.emit v) :=
  hs.map (·.emit v) rfl rfl fun _ => rfl

theorem store {s s' : State} (hs : SameButUnoccupied s s') (a : Addr) (v : Word) :
    SameButUnoccupied (s.store a v) (s'.store a v) := hs.map (·.store a v) rfl rfl fun _ => rfl

theorem ip_eq {s s' : State} (hs : SameButUnoccupied s s') : s'.ip = s.ip := by
  obtain ⟨c, rfl, -⟩ := sameButUnoccupied_iff.mp hs
  rfl

theorem status_eq {s s' : State} (hs : SameButUnoccupied s s') : s'.status = s.status := by
  obtain ⟨c, rfl, -⟩ := sameButUnoccupied_iff.mp hs
  rfl

theorem config_eq {s s' : State} (hs : SameButUnoccupied s s') : s'.config = s.config := by
  obtain ⟨c, rfl, -⟩ := sameButUnoccupied_iff.mp hs
  rfl

theorem load_eq {s s' : State} (hs : SameButUnoccupied s s') (a : Addr) : s'.load a = s.load a := by
  obtain ⟨c, rfl, -⟩ := sameButUnoccupied_iff.mp hs
  rfl

/-- A shorter stack on the old slots: what is unoccupied grows. -/
theorem shorten {s : State} {c : Slots} (hc : ∀ k < s.h.val, Cells.read c k = s.slot k) {h : Fin 257}
    (hle : h.val ≤ s.h.val) : SameButUnoccupied (s.withStack h s.slots) (s.withStack h c) :=
  sameButUnoccupied_iff.mpr ⟨c, rfl, fun k hk => hc k (Nat.lt_of_lt_of_le hk hle)⟩

/-- The same write to both slot lists, at the old stack's top or just above it: what is occupied then agrees. -/
theorem write {s : State} {c : Slots} (hc : ∀ k < s.h.val, Cells.read c k = s.slot k) {h : Fin 257} {j : Nat}
    (hle : ∀ k < h.val, k = j ∨ k < s.h.val) (v : Word) :
    SameButUnoccupied (s.withStack h (Cells.write s.slots j v)) (s.withStack h (Cells.write c j v)) := by
  refine sameButUnoccupied_iff.mpr ⟨_, rfl, fun k hk => ?_⟩
  rw [State.slot_withStack, Cells.read_write, Cells.read_write]
  split_ifs with hj
  · rfl
  · exact hc k ((hle k hk).resolve_left hj)

end SameButUnoccupied

/-! ### Pseudocode that does the same on both -/

/-- Both go on with the same value or both end the launch, and the states they leave differ at most in unoccupied slots. -/
inductive Act.Alike {α : Type} : Act α → Act α → Prop where
  | go (a : α) {s s' : State} (h : SameButUnoccupied s s') : Act.Alike (.go a s) (.go a s')
  | ended {s s' : State} (h : SameButUnoccupied s s') : Act.Alike (.ended s) (.ended s')

/-- Both answers are next states, which differ at most in unoccupied slots. -/
def NextAlike (o o' : Host.Outcome State Fault Refusal) : Prop :=
  ∃ t t', o = .next t ∧ o' = .next t' ∧ SameButUnoccupied t t'

namespace Act.Alike

theorem bind {α β : Type} {m m' : Act α} {k k' : α → State → Act β} (hm : m.Alike m')
    (hk : ∀ a s s', SameButUnoccupied s s' → (k a s).Alike (k' a s')) : (m.bind k).Alike (m'.bind k') := by
  cases hm with
  | go a hs => exact hk a _ _ hs
  | ended hs => exact .ended hs

theorem final {α : Type} {m m' : Act α} (hm : m.Alike m') : SameButUnoccupied m.final m'.final := by
  cases hm with
  | go a hs => exact hs
  | ended hs => exact hs

theorem outcome {α : Type} {m m' : Act α} (hm : m.Alike m') : NextAlike m.outcome m'.outcome :=
  ⟨m.final, m'.final, rfl, rfl, hm.final⟩

section primitives

variable {s s' : State} (hs : SameButUnoccupied s s')
include hs

theorem raise {α : Type} (f : Fault) : (Machine.raise f s : Act α).Alike (Machine.raise f s') :=
  .ended (hs.withStatus _)

theorem halt {α : Type} (o : RunOutcome) : (Machine.halt o s : Act α).Alike (Machine.halt o s') :=
  .ended (hs.withStatus _)

theorem push (v : Word) : (Machine.push v s).Alike (Machine.push v s') := by
  obtain ⟨c, rfl, hc⟩ := sameButUnoccupied_iff.mp hs
  by_cases h : s.h.val = 256
  · rw [push_full h, push_full (s := s.withStack s.h c) h]
    exact raise hs _
  · rw [push_room v (by omega), push_room (s := s.withStack s.h c) v (by rw [State.withStack_h]; omega)]
    exact .go _ (.write hc (fun k hk => by simp only at hk; omega) v)

theorem pop : (Machine.pop s).Alike (Machine.pop s') := by
  obtain ⟨c, rfl, hc⟩ := sameButUnoccupied_iff.mp hs
  by_cases h : s.h.val = 0
  · rw [pop_of_zero h, pop_of_zero (s := s.withStack s.h c) h]
    exact raise hs _
  · have htop : Cells.read c (s.h.val - 1) = s.slot (s.h.val - 1) := hc _ (by omega)
    rw [pop_of_ne_zero h, ← htop, pop_of_ne_zero (s := s.withStack s.h c) h]
    exact .go _ (.shorten hc (Nat.sub_le _ _))

theorem top : (Machine.top s).Alike (Machine.top s') := by
  obtain ⟨c, rfl, hc⟩ := sameButUnoccupied_iff.mp hs
  by_cases h : s.h.val = 0
  · rw [top_of_zero h, top_of_zero (s := s.withStack s.h c) h]
    exact raise hs _
  · have htop : Cells.read c (s.h.val - 1) = s.slot (s.h.val - 1) := hc _ (by omega)
    rw [top_of_ne_zero h, ← htop, top_of_ne_zero (s := s.withStack s.h c) h]
    exact .go _ hs

theorem settop (v : Word) : (Machine.settop v s).Alike (Machine.settop v s') := by
  obtain ⟨c, rfl, hc⟩ := sameButUnoccupied_iff.mp hs
  by_cases h : s.h.val = 0
  · rw [settop_of_zero h, settop_of_zero (s := s.withStack s.h c) h]
    exact raise hs _
  · rw [settop_of_ne_zero v h, settop_of_ne_zero (s := s.withStack s.h c) v h]
    exact .go _ (.write hc (fun k hk => .inr hk) v)

theorem addrOf (v : Word) : (Machine.addrOf v s).Alike (Machine.addrOf v s') := by
  obtain ⟨c, rfl, -⟩ := sameButUnoccupied_iff.mp hs
  cases h : addressOf s.config.addressPolicy v with
  | none =>
    rw [addrOf_none h, addrOf_withStack_none h]
    exact raise hs _
  | some a =>
    rw [addrOf_some h, addrOf_withStack_some h]
    exact .go a hs

theorem topOp (op : Word → Word) : (Machine.topOp op s).Alike (Machine.topOp op s') :=
  (top hs).bind fun t _ _ hs => settop hs (op t)

theorem binaryOp (op : Word → Word → Word) : (Machine.binaryOp op s).Alike (Machine.binaryOp op s') :=
  (pop hs).bind fun r _ _ hs => topOp hs (op · r)

theorem conditionalJump (test : Word → Bool) (target : Imm) :
    (Machine.conditionalJump test target s).Alike (Machine.conditionalJump test target s') :=
  (pop hs).bind fun c _ _ hs => by
    cases test c
    · exact .go () hs
    · exact .go () (hs.withIp _)

theorem codeRead (k : Nat) : (Machine.codeRead k s).Alike (Machine.codeRead k s') := by
  obtain ⟨c, rfl, -⟩ := sameButUnoccupied_iff.mp hs
  cases hb : s.code[k]? with
  | none =>
    have hk := List.getElem?_eq_none_iff.mp hb
    rw [codeRead_none hk, codeRead_none (s := s.withStack s.h c) hk]
    exact raise hs _
  | some b =>
    rw [codeRead_some hb, codeRead_some (s := s.withStack s.h c) hb]
    exact .go b hs

theorem fetchOpcode : (Machine.fetchOpcode s).Alike (Machine.fetchOpcode s') := by
  rw [Machine.fetchOpcode, Machine.fetchOpcode, hs.ip_eq]
  refine (codeRead hs _).bind fun b u u' hu => .go b ?_
  rw [hu.ip_eq]
  exact hu.withIp _

theorem peekImm : (Machine.peekImm s).Alike (Machine.peekImm s') := by
  rw [Machine.peekImm, Machine.peekImm, hs.ip_eq]
  refine (codeRead hs _).bind fun hi u u' hu => ?_
  rw [hu.ip_eq]
  exact (codeRead hu _).bind fun lo _ _ hv => .go _ hv

theorem fetchImm : (Machine.fetchImm s).Alike (Machine.fetchImm s') := by
  rw [Machine.fetchImm, Machine.fetchImm, hs.ip_eq]
  refine (codeRead hs _).bind fun hi u u' hu => ?_
  rw [hu.ip_eq]
  refine (codeRead hu _).bind fun lo v v' hv => .go _ ?_
  rw [hv.ip_eq]
  exact hv.withIp _

theorem readImm (m : Mnemonic) : (Machine.readImm m s).Alike (Machine.readImm m s') := by
  unfold Machine.readImm
  split_ifs
  · exact peekImm hs
  · exact fetchImm hs
  · exact .go 0 hs

theorem fetchInstr : (Machine.fetchInstr s).Alike (Machine.fetchInstr s') := by
  refine (fetchOpcode hs).bind fun b u u' hu => ?_
  rw [hu.config_eq]
  cases decodeOpcode u.config b with
  | none => exact .go _ hu
  | some m => exact (readImm hu m).bind fun imm _ _ hv => .go _ hv

/-- Every instruction does the same on both: it is made of primitives that do. -/
theorem exec (i : Instr) : NextAlike (Machine.exec i s) (Machine.exec i s') := by
  cases i with
  | abort => exact (halt (α := Unit) hs _).outcome
  | done => exact (halt (α := Unit) hs _).outcome
  | undefined b => exact (halt (α := Unit) hs _).outcome
  | pushImm imm => exact (push hs _).outcome
  | loadMemImm a =>
    simp only [Machine.exec, execLoadMemImm, hs.load_eq]
    exact (push hs _).outcome
  | loadAddMemImm a =>
    have hcell : addCell s' a = addCell s a := by funext t; simp only [addCell, hs.load_eq]
    simp only [Machine.exec, execLoadAddMemImm, hcell]
    exact (topOp hs _).outcome
  | addImm imm => exact (topOp hs _).outcome
  | greaterOrEqualImm imm => exact (topOp hs _).outcome
  | add => exact (binaryOp hs _).outcome
  | sub => exact (binaryOp hs _).outcome
  | mul => exact (binaryOp hs _).outcome
  | equal => exact (binaryOp hs _).outcome
  | less => exact (binaryOp hs _).outcome
  | lessOrEqual => exact (binaryOp hs _).outcome
  | greater => exact (binaryOp hs _).outcome
  | greaterOrEqual => exact (binaryOp hs _).outcome
  | discard => exact (pop hs).outcome
  | dup => exact ((top hs).bind fun t _ _ hu => push hu t).outcome
  | div =>
    refine ((pop hs).bind fun r u u' hu => ?_).outcome
    split_ifs
    · exact halt hu _
    · exact topOp hu (div64 · r)
  | storeMemImm a => exact ((pop hs).bind fun v _ _ hu => .go () (hu.store a v)).outcome
  | loadIndirect =>
    refine ((pop hs).bind fun v _ _ hu => (addrOf hu v).bind fun a w w' hw => ?_).outcome
    rw [hw.load_eq]
    exact push hw _
  | storeIndirect =>
    exact ((pop hs).bind fun val _ _ hu => (pop hu).bind fun v _ _ hv => (addrOf hv v).bind fun a _ _ hw =>
      .go () (hw.store a val)).outcome
  | popResult => exact ((pop hs).bind fun v _ _ hu => .go () (hu.withRes v)).outcome
  | print => exact ((pop hs).bind fun v _ _ hu => .go () (hu.emit v)).outcome
  | jump target => exact (Act.Alike.go () (hs.withIp _)).outcome
  | jumpIfTrue target => exact (conditionalJump hs _ target).outcome
  | jumpIfFalse target => exact (conditionalJump hs _ target).outcome

end primitives

end Act.Alike

/-! ### The step -/

/-- A step of a running machine does the same on both. -/
theorem step_alike {s s' : State} (hs : SameButUnoccupied s s') (hr : s.status = .running) :
    NextAlike (step s) (step s') := by
  have hfetch := Act.Alike.fetchInstr hs
  rw [step_running hr, step_running (hs.status_eq.trans hr)]
  generalize fetchInstr s = m, fetchInstr s' = m' at hfetch ⊢
  cases hfetch with
  | go i hu => exact Act.Alike.exec hu i
  | ended hu => exact ⟨_, _, rfl, rfl, hu⟩

/-- A machine that is not Running stops for a reason its status alone gives (R92). -/
theorem step_eq_of_status {s s' : State} (hst : s'.status = s.status) (hr : s.status ≠ .running) :
    step s' = step s := by
  unfold step
  rw [hst]
  cases h : s.status with
  | running => exact absurd h hr
  | idle => rfl
  | halted o => rfl
  | faulted f => rfl

/-- Settles O29: while Running, the step does the same on both (`step_alike`); otherwise it stops as the status says, which
is the same in both. -/
theorem unoccupiedSlotsAreNeverObserved : Obligations.UnoccupiedSlotsAreNeverObserved := by
  intro s s' hs
  by_cases hr : s.status = .running
  · obtain ⟨t, t', ht, ht', hsame⟩ := step_alike hs hr
    rw [ht, ht']
    exact ⟨fun u hu => by cases hu; exact ⟨t', rfl, hsame⟩, nofun, nofun⟩
  · rw [step_eq_of_status hs.status_eq hr]
    exact ⟨fun t h => absurd (running_of_step h) hr, fun _ => id, fun _ => id⟩

end Sys2Proof.Machine


/-! ## Launches, runs and single steps (40_dispatch_engine.md R91, R99, R106; 70_reset_and_hazards.md R240, R241) -/

namespace Sys2Proof.Machine

/-! ### One step -/

/-- Settles O8: the byte-by-byte fetch reads what the decoder of byte sequences reads (`fetchInstr_of_decode`). -/
theorem stepRunsTheDecodedInstruction : Obligations.StepRunsTheDecodedInstruction :=
  fun _ _ _ hr h => step_go hr (fetchInstr_of_decode h)

/-- Settles O9: the step changes nothing but the status (`step_past_buffer`). -/
theorem opcodeFetchPastTheBufferFaults : Obligations.OpcodeFetchPastTheBufferFaults :=
  fun _ hr hip => ⟨_, step_past_buffer hr hip, rfl, rfl⟩

/-- Settles O10: the step faults in the fetch, before the instruction's own actions (`step_cut_short`). -/
theorem immediateFetchFaultsComeBeforeStackFaults : Obligations.ImmediateFetchFaultsComeBeforeStackFaults :=
  fun _ _ hm hr hw hb hs => step_cut_short hm hr hw hb hs

/-! ### A jump to itself -/

/-- A step at a JUMP to its own offset leaves the machine as it was (R75, R150). -/
theorem step_jump_to_itself {s : State} {target : Imm} {rest : List Byte} (hr : s.status = .running)
    (hip : s.ip = target.toNat) (h : decode s.config (s.code.drop s.ip) = .ok (.jump target, rest)) :
    step s = .next s := by
  have hback : jumpTo target (s.withIp (s.ip + 1)) = s := by
    rw [jumpTo, ← hip]
    rfl
  rw [step_go hr (fetchInstr_of_decode h)]
  exact congrArg Host.Outcome.next hback

/-- A state that steps to itself is where every number of steps leads. -/
theorem stepsTo_of_fixed {s : State} (h : step s = .next s) (n : Nat) : StepsTo n s s := by
  induction n with
  | zero => exact stepsTo_zero.mpr rfl
  | succ n ih => exact stepsTo_succ.mpr ⟨s, h, ih⟩

/-- Settles O49: the state steps to itself. -/
theorem jumpToItselfNeverEnds : Obligations.JumpToItselfNeverEnds :=
  fun _ _ _ n hr hip h => stepsTo_of_fixed (step_jump_to_itself hr hip h) n

/-! ### A launch -/

theorem launch_eq_launched {s : State} (code : List Byte) (h : s.status ≠ .running) :
    launch code s = some (State.launched s.config code) := launch_of_not_running code h

/-- Settles O12: the launch reset writes each register, and an empty array reads 0 everywhere (R41). -/
theorem launchResetsEveryPieceOfState : Obligations.LaunchResetsEveryPieceOfState :=
  fun _ code h => ⟨_, launch_of_not_running code h, rfl, rfl, fun _ => rfl, fun _ => rfl, rfl, rfl, rfl, rfl, rfl⟩

/-- Settles O13: the state a launch starts from is a function of the configuration and the code. -/
theorem launchForgetsEveryEarlierLaunch : Obligations.LaunchForgetsEveryEarlierLaunch := by
  intro s s' code fuel hs hs' hc
  rw [interpret, interpret, launch_eq_launched code hs, launch_eq_launched code hs', hc]

/-! ### The answer of a launch -/

/-- A machine that has ended stays as it is however long it is watched (R92). -/
theorem runLoop_of_not_running {s : State} (h : s.status ≠ .running) (fuel : Nat) : runLoop fuel s = viewOf s := by
  cases fuel with
  | zero => rfl
  | succ fuel =>
    rw [runLoop]
    cases hstep : step s with
    | next t => exact absurd (running_of_step hstep) h
    | fault f => rfl
    | refused r => rfl

/-- What was returned within n steps is returned within every larger number. -/
theorem runLoop_returned_mono {n m : Nat} (hle : n ≤ m) {s t : State} {o : RunOutcome}
    (h : runLoop n s = .returned o t) : runLoop m s = .returned o t := by
  induction n generalizing m s with
  | zero =>
    have hst := (viewOf_eq_returned.mp h).1
    rw [runLoop_of_not_running (by simp [hst])]
    exact h
  | succ n ih =>
    obtain ⟨m, rfl⟩ : ∃ k, m = k + 1 := ⟨m - 1, by omega⟩
    rw [runLoop] at h ⊢
    cases hstep : step s with
    | next u => exact ih (Nat.le_of_succ_le_succ hle) (by simpa only [hstep] using h)
    | fault f => simpa only [hstep] using h
    | refused r => simpa only [hstep] using h

/-- A state that is returned has recorded the outcome. -/
theorem status_of_runLoop_returned {n : Nat} {s t : State} {o : RunOutcome} (h : runLoop n s = .returned o t) :
    t.status = .halted o := by
  obtain ⟨-, u, -, hview⟩ := runLoop_reaches n s
  obtain ⟨hst, rfl⟩ := viewOf_eq_returned.mp (hview ▸ h)
  exact hst

/-- Settles O14: the launch starts from the same state, and watching it longer shows the same (`runLoop_returned_mono`). -/
theorem interpretAnswerIsStableUnderMoreSteps : Obligations.InterpretAnswerIsStableUnderMoreSteps := by
  intro s t code n m o hle h
  obtain ⟨s₀, hlaunch, hloop⟩ := Option.map_eq_some_iff.mp h
  exact ⟨Option.map_eq_some_iff.mpr ⟨s₀, hlaunch, runLoop_returned_mono hle hloop⟩, status_of_runLoop_returned hloop⟩

/-! ### The result register along a run -/

/-- POP_RESULT leaves the top in `res`, and `res` alone when the stack is empty (R170). -/
theorem exec_popResult_res {s t : State} (h : exec .popResult s = .next t) :
    t.res = s.occupied.getLast?.getD s.res := by
  rw [occupied_getLast?]
  by_cases hzero : s.h.val = 0
  · rw [exec_popResult_of_zero hzero] at h
    cases h
    rw [if_pos hzero]
    rfl
  · rw [exec_popResult_of_ne_zero hzero] at h
    cases h
    rw [if_neg hzero]
    rfl

theorem resultAbout_of_popResult {s u : State} (h : nextInstr s = some (.popResult, u)) :
    resultAbout s = u.occupied.getLast? := by simp only [resultAbout, h]

theorem resultAbout_of_ne_popResult {s u : State} {i : Instr} (hi : i ≠ .popResult) (h : nextInstr s = some (i, u)) :
    resultAbout s = none := by
  simp only [resultAbout, h]
  split
  next heq =>
    cases heq
    exact absurd rfl hi
  next => rfl

theorem resultAbout_of_raise {s u : State} {f : Fault} (h : fetchInstr s = raise f u) : resultAbout s = none := by
  simp only [resultAbout, nextInstr_of_raise h]

/-- A step leaves in `res` the value it pops for it, or what was there (R102). -/
theorem step_res {s t : State} (h : step s = .next t) : t.res = (resultAbout s).getD s.res := by
  obtain ⟨i, n, hf, hexec⟩ | ⟨n, hf, rfl⟩ := step_fetch_cases h
  · have hnext := nextInstr_eq_some.mpr ⟨running_of_step h, hf⟩
    by_cases hi : i = .popResult
    · subst hi
      rw [resultAbout_of_popResult hnext, exec_popResult_res hexec, State.withIp_res]
    · rw [resultAbout_of_ne_popResult hi hnext, exec_res_of_ne_popResult hi hexec]
      rfl
  · rw [resultAbout_of_raise hf]
    rfl

theorem lastResult_succ {s t : State} (n : Nat) (d : Word) (h : step s = .next t) :
    lastResult (n + 1) s d = lastResult n t ((resultAbout s).getD d) := by simp only [lastResult, h]

/-- After a run `res` is the last value popped for it, or what it was before (R102). -/
theorem stepsTo_res {n : Nat} {s t : State} (h : StepsTo n s t) : t.res = lastResult n s s.res := by
  induction n generalizing s with
  | zero =>
    rw [stepsTo_zero.mp h]
    rfl
  | succ n ih =>
    obtain ⟨u, hstep, hrun⟩ := stepsTo_succ.mp h
    rw [ih hrun, step_res hstep, lastResult_succ n _ hstep]

/-- Settles O18: a run leaves the last popped value in `res` (`stepsTo_res`), and a launch starts with `res` 0. -/
theorem resultIsTheLastPopped : Obligations.ResultIsTheLastPopped := by
  intro s s₀ t code n hlaunch hrun
  have hzero : s₀.res = 0 := by rw [launch_some hlaunch]; rfl
  rw [stepsTo_res hrun, hzero]

end Sys2Proof.Machine


/-! ## Popped addresses, and the text of an output event (20_memory.md R54, R68) -/

namespace Sys2Proof.Machine

/-! ### Popped addresses -/

/-- Where a value has an address, AddrOf goes on with that address, the value modulo 65536 (R54). -/
theorem addrOf_toNat {v : Word} {s : State} (h : s.config.addressPolicy = .truncate16 ∨ v.toNat < 65536) :
    ∃ a : Addr, a.toNat = v.toNat % 65536 ∧ addrOf v s = .go a s := by
  obtain ⟨a, ha, hnat⟩ := addressOf_eq_some h
  exact ⟨a, hnat, addrOf_some ha⟩

/-- Settles O32: `addressOf` has an address but for a wide value under FaultIfWide, and a narrow value is its own remainder. -/
theorem poppedAddressesFollowThePolicy : Obligations.PoppedAddressesFollowThePolicy := by
  refine fun v s => ⟨fun hp => addrOf_toNat (.inl hp), fun _ hlt => ?_, fun hp hge => ?_⟩
  · obtain ⟨a, hnat, hgo⟩ := addrOf_toNat (s := s) (.inr hlt)
    exact ⟨a, by rw [hnat, Nat.mod_eq_of_lt hlt], hgo⟩
  · exact addrOf_none (addressOf_eq_none.mpr ⟨hp, hge⟩)

/-! ### The text of an output event -/

theorem decimalDigits_of_lt {n : Nat} (h : n < 10) (fuel : Nat) : decimalDigits (fuel + 1) n = [n] := if_pos h

theorem decimalDigits_of_ge {n : Nat} (h : ¬n < 10) (fuel : Nat) :
    decimalDigits (fuel + 1) n = decimalDigits fuel (n / 10) ++ [n % 10] := if_neg h

theorem decimalDigits_ne_nil (fuel n : Nat) : decimalDigits (fuel + 1) n ≠ [] := by
  by_cases h : n < 10
  · simp [decimalDigits_of_lt h]
  · simp [decimalDigits_of_ge h]

theorem decimalDigits_lt_ten (fuel n : Nat) : ∀ d ∈ decimalDigits fuel n, d < 10 := by
  induction fuel generalizing n with
  | zero => exact fun d hd => absurd hd List.not_mem_nil
  | succ fuel ih =>
    by_cases h : n < 10
    · simpa [decimalDigits_of_lt h] using h
    · rw [decimalDigits_of_ge h, List.forall_mem_append]
      exact ⟨ih _, by simpa using Nat.mod_lt n (by decide)⟩

/-- Enough digits read back as the number. -/
theorem decimalDigits_value {fuel n : Nat} (h : n < 10 ^ fuel) :
    (decimalDigits fuel n).foldl (fun n d => 10 * n + d) 0 = n := by
  induction fuel generalizing n with
  | zero => exact (Nat.lt_one_iff.mp h).symm
  | succ fuel ih =>
    by_cases hn : n < 10
    · simp [decimalDigits_of_lt hn]
    · have hdiv : n / 10 < 10 ^ fuel := Nat.div_lt_of_lt_mul (by rwa [Nat.pow_succ'] at h)
      rw [decimalDigits_of_ge hn, List.foldl_append, ih hdiv]
      exact Nat.div_add_mod n 10

/-- A positive number has no leading zero. -/
theorem decimalDigits_head_ne_zero {fuel n : Nat} (h : n < 10 ^ fuel) (hpos : 0 < n) :
    (decimalDigits fuel n).head? ≠ some 0 := by
  induction fuel generalizing n with
  | zero => simp [decimalDigits]
  | succ fuel ih =>
    by_cases hn : n < 10
    · simpa [decimalDigits_of_lt hn] using Nat.ne_of_gt hpos
    · have hdiv : n / 10 < 10 ^ fuel := Nat.div_lt_of_lt_mul (by rwa [Nat.pow_succ'] at h)
      have hdivpos : 0 < n / 10 := Nat.div_pos (Nat.not_lt.mp hn) (by decide)
      have hhigh : decimalDigits fuel (n / 10) ≠ [] := by
        cases fuel with
        | zero => exact absurd hdivpos (by omega)
        | succ fuel => exact decimalDigits_ne_nil fuel _
      rw [decimalDigits_of_ge hn, List.head?_append_of_ne_nil _ hhigh]
      exact ih hdiv hdivpos

/-- Settles O33: 20 digits hold every 64-bit value, so the digits read back as it and only 0 starts with a zero. -/
theorem renderedLineIsTheDecimalNumber : Obligations.RenderedLineIsTheDecimalNumber := by
  intro v
  have hfits : v.toNat < 10 ^ 20 := Nat.lt_trans v.isLt (by decide)
  refine ⟨decimalDigits 20 v.toNat, rfl, decimalDigits_lt_ten 20 _, decimalDigits_value hfits,
    decimalDigits_ne_nil 19 _, fun hhead => ?_⟩
  obtain hzero | hpos := Nat.eq_zero_or_pos v.toNat
  · rw [hzero]
    rfl
  · exact absurd hhead (decimalDigits_head_ne_zero hfits hpos)

end Sys2Proof.Machine

/-! ## DIV (43_arithmetic.md R144) -/

namespace Sys2Proof.Machine

/-- The floor quotient fits in 64 bits (R8). -/
theorem div64_toNat (l r : Word) : (div64 l r).toNat = l.toNat / r.toNat := by
  rw [div64, BitVec.toNat_ofNat, Nat.mod_eq_of_lt (Nat.lt_of_le_of_lt (Nat.div_le_self _ _) l.isLt)]

/-- A DIV that finds no zero divisor is a binary operation like the others, on a short stack too (R140, R144). -/
theorem execDiv_eq_binaryOp {s : State} (h : s.occupied.getLast? ≠ some 0) : execDiv s = (binaryOp div64 s).outcome := by
  rw [execDiv, binaryOp]
  obtain ⟨-, hpop⟩ | ⟨hne, hpop⟩ := pop_cases s
  · rw [hpop, Act.bind_raise, Act.bind_raise]
  · have hr : s.slot (s.h.val - 1) ≠ 0 := by rwa [occupied_getLast?, if_neg hne, ne_eq, Option.some_inj] at h
    rw [hpop, Act.bind_go, Act.bind_go, if_neg hr]

/-- Settles O45: with a nonzero divisor DIV is `binaryOp` of the quotient (`execDiv_eq_binaryOp`), which floor division
bounds on both sides. -/
theorem divLeavesTheFloorQuotient : Obligations.DivLeavesTheFloorQuotient := by
  refine ⟨isF1_of rfl rfl fun _ => rfl, fun s => ⟨fun rest l r hs hr => ?_, fun r hs hr => ?_, fun hzero => ?_⟩⟩
  · obtain ⟨t, ht, hocc, hframe⟩ := binaryOp_leaves div64 hs
    have hexec : exec .div s = .next t := by
      rw [exec, execDiv_eq_binaryOp (by simpa [hs] using hr), ht, Act.outcome_go]
    have hpos : 0 < r.toNat := Nat.pos_of_ne_zero fun h0 => hr (BitVec.eq_of_toNat_eq h0)
    refine ⟨t, div64 l r, hexec, hocc, ?_, ?_, hframe⟩
    · rw [div64_toNat]
      exact Nat.div_mul_le_self _ _
    · rw [div64_toNat]
      exact (Nat.div_lt_iff_lt_mul hpos).mp (Nat.lt_succ_self _)
  · have hshort : s.h.val < 2 := by
      have hone : 1 = s.h.val := by simpa [hs] using occupied_length s
      omega
    rw [exec, execDiv_eq_binaryOp (by simpa [hs] using hr)]
    exact binaryOp_underflows div64 hshort
  · have hlast : s.occupied.getLast? ≠ some 0 := by rw [occupied_getLast?, if_pos hzero]; exact nofun
    rw [exec, execDiv_eq_binaryOp hlast]
    exact binaryOp_underflows div64 (by omega)

end Sys2Proof.Machine


/-! ## Which instruction raises which model fault (60_exceptions.md R206) -/

namespace Sys2Proof.Machine

/-! ### The stack as its top slots -/

theorem occupied_of_zero {s : State} (h : s.h.val = 0) : s.occupied = [] :=
  List.eq_nil_of_length_eq_zero (by rw [occupied_length, h])

theorem occupied_of_ne_zero {s : State} (h : s.h.val ≠ 0) : ∃ rest v, s.occupied = rest ++ [v] :=
  ⟨_, _, occupied_split h⟩

theorem occupied_of_lt_two {s : State} (h : s.h.val < 2) : s.occupied = [] ∨ ∃ v, s.occupied = [v] := by
  by_cases hzero : s.h.val = 0
  · exact .inl (occupied_of_zero hzero)
  · have hone : s.h.val - 1 = 0 := by omega
    exact .inr ⟨_, by rw [occupied_split hzero, hone]; rfl⟩

theorem occupied_of_two_le {s : State} (h : 2 ≤ s.h.val) : ∃ rest l r, s.occupied = rest ++ [l, r] := by
  have hpair : s.h.val = s.h.val - 2 + 1 + 1 := by omega
  refine ⟨(List.range (s.h.val - 2)).map s.slot, s.slot (s.h.val - 2), s.slot (s.h.val - 2 + 1), ?_⟩
  rw [State.occupied, hpair, List.range_succ, List.range_succ]
  simp

/-! ### The faults of a piece of pseudocode -/

theorem faultsWith_next {t : State} {f : Fault} : FaultsWith f (.next t) ↔ t.status = .faulted f := by
  simp [FaultsWith]

/-- Pseudocode that raises one fault under a condition and else leaves no faulted status. -/
theorem faultsWith_iff_of_split {α : Type} {m : Act α} {f g : Fault} {p : Prop} (hraise : p → ∃ u, m = raise g u)
    (helse : ¬p → ∀ f, m.final.status ≠ .faulted f) : FaultsWith f m.outcome ↔ f = g ∧ p := by
  rw [Act.outcome, faultsWith_next]
  by_cases hp : p
  · obtain ⟨u, rfl⟩ := hraise hp
    simp [hp, eq_comm]
  · simp [helse hp, hp]

theorem State.not_faulted_of_running {s : State} (h : s.status = .running) (f : Fault) : s.status ≠ .faulted f := by
  simp [h]

/-- A push onto a stack with room leaves the status (R24). -/
theorem push_status {s : State} (v : Word) (h : s.h.val < 256) : (push v s).final.status = s.status := by
  rw [push_room v h]
  rfl

/-! ### The shared operations on a running machine -/

section running

variable {s : State} (hr : s.status = .running) (f : Fault)
include hr

theorem faultsWith_push (v : Word) : FaultsWith f (push v s).outcome ↔ f = .stackOverflow ∧ s.h.val = 256 := by
  refine faultsWith_iff_of_split (fun h => ⟨s, push_full h⟩) fun h => ?_
  rw [push_status v (by omega)]
  exact State.not_faulted_of_running hr

theorem faultsWith_topOp (op : Word → Word) :
    FaultsWith f (topOp op s).outcome ↔ f = .stackUnderflow ∧ s.h.val < 1 := by
  refine faultsWith_iff_of_split (fun h => ⟨s, topOp_of_zero op (by omega)⟩) fun h => ?_
  obtain ⟨rest, v, hs⟩ := occupied_of_ne_zero (s := s) (by omega)
  obtain ⟨t, ht, -, rfl⟩ := topOp_occupied op hs
  rw [ht]
  exact State.not_faulted_of_running hr

theorem faultsWith_binaryOp (op : Word → Word → Word) :
    FaultsWith f (binaryOp op s).outcome ↔ f = .stackUnderflow ∧ s.h.val < 2 := by
  refine faultsWith_iff_of_split (binaryOp_short op) fun h => ?_
  obtain ⟨rest, l, r, hs⟩ := occupied_of_two_le (Nat.not_lt.mp h)
  obtain ⟨t, ht, -, rfl⟩ := binaryOp_occupied op hs
  rw [ht]
  exact State.not_faulted_of_running hr

theorem faultsWith_pop : FaultsWith f (pop s).outcome ↔ f = .stackUnderflow ∧ s.h.val < 1 := by
  refine faultsWith_iff_of_split (fun h => ⟨s, pop_of_zero (by omega)⟩) fun h => ?_
  rw [pop_of_ne_zero (by omega)]
  exact State.not_faulted_of_running hr

/-- A pop followed by what leaves the status. -/
theorem faultsWith_popThen {α : Type} {k : Word → State → Act α} (hk : ∀ v u, (k v u).final.status = u.status) :
    FaultsWith f ((pop s).bind k).outcome ↔ f = .stackUnderflow ∧ s.h.val < 1 := by
  refine faultsWith_iff_of_split (fun h => ⟨s, by rw [pop_of_zero (by omega), Act.bind_raise]⟩) fun h => ?_
  rw [pop_of_ne_zero (by omega), Act.bind_go, hk]
  exact State.not_faulted_of_running hr

theorem faultsWith_conditionalJump (test : Word → Bool) (target : Imm) :
    FaultsWith f (conditionalJump test target s).outcome ↔ f = .stackUnderflow ∧ s.h.val < 1 :=
  faultsWith_popThen hr f fun c u => by cases test c <;> rfl

/-- AddrOf followed by what leaves the status (R54). -/
theorem faultsWith_addrOfThen {α : Type} {k : Addr → State → Act α} (hk : ∀ a, (k a s).final.status = s.status)
    (v : Word) : FaultsWith f ((addrOf v s).bind k).outcome ↔
      f = .addressOutOfRange ∧ s.config.addressPolicy = .faultIfWide ∧ 65536 ≤ v.toNat := by
  refine faultsWith_iff_of_split (fun h => ⟨s, by rw [addrOf_none (addressOf_eq_none.mpr h), Act.bind_raise]⟩) fun h => ?_
  obtain ⟨a, ha⟩ := Option.ne_none_iff_exists'.mp (mt addressOf_eq_none.mp h)
  rw [addrOf_some ha, Act.bind_go, hk]
  exact State.not_faulted_of_running hr

end running

/-! ### What the rules name -/

/-- The faults an instruction's rule names, each with its condition (R206). -/
def Raises (i : Instr) (s : State) : Fault → Prop
  | .stackOverflow => s.h.val = 256 ∧ pushesOntoFull i = true
  | .stackUnderflow => s.h.val < slotsNeeded i ∧ ¬(i = .div ∧ ∃ rest, s.occupied = rest ++ [0])
  | .addressOutOfRange => s.config.addressPolicy = .faultIfWide ∧ ∃ v, addressOperand i s = some v ∧ 65536 ≤ v.toNat
  | .fetchOutOfBounds => False

section rules

variable {i : Instr} {s : State} {f : Fault} (haddr : addressOperand i s = none)
include haddr

/-- An instruction whose rule names StackUnderflow alone. -/
theorem faultsWith_exec_of_underflow (hpush : pushesOntoFull i = false) (hdiv : i ≠ .div)
    (h : FaultsWith f (exec i s) ↔ f = .stackUnderflow ∧ s.h.val < slotsNeeded i) :
    FaultsWith f (exec i s) ↔ Raises i s f := by
  rw [h]
  cases f <;> simp [Raises, hpush, haddr, hdiv]

/-- An instruction whose rule names StackOverflow alone. -/
theorem faultsWith_exec_of_overflow (hpush : pushesOntoFull i = true) (hneed : slotsNeeded i = 0)
    (h : FaultsWith f (exec i s) ↔ f = .stackOverflow ∧ s.h.val = 256) : FaultsWith f (exec i s) ↔ Raises i s f := by
  rw [h]
  cases f <;> simp [Raises, hpush, haddr, hneed]

/-- An instruction whose rule names no fault. -/
theorem faultsWith_exec_of_none {t : State} (hpush : pushesOntoFull i = false) (hneed : slotsNeeded i = 0)
    (h : exec i s = .next t) (ht : ∀ f, t.status ≠ .faulted f) : FaultsWith f (exec i s) ↔ Raises i s f := by
  rw [h, faultsWith_next]
  cases f <;> simp [Raises, hpush, haddr, hneed, ht]

end rules

/-! ### The instructions that name two faults, or have a case of their own -/

section running

variable {s : State} (hr : s.status = .running) (f : Fault)
include hr

theorem faultsWith_execDup : FaultsWith f (execDup s) ↔ Raises .dup s f := by
  by_cases h : s.h.val = 0
  · rw [execDup, top_of_zero h, Act.bind_raise, Act.outcome_raise, faultsWith_next]
    cases f <;> simp [Raises, h, slotsNeeded, addressOperand]
  · rw [execDup, top_of_ne_zero h, Act.bind_go, faultsWith_push hr]
    cases f <;> simp [Raises, h, slotsNeeded, pushesOntoFull, addressOperand]

theorem faultsWith_execDiv : FaultsWith f (execDiv s) ↔ Raises .div s f := by
  by_cases h : s.occupied.getLast? = some 0
  · have hzero : ∃ rest, s.occupied = rest ++ [0] := List.getLast?_eq_some_iff.mp h
    rw [execDiv_of_zero_divisor h, faultsWith_next]
    cases f with
    | stackUnderflow => simpa [Raises] using fun _ => hzero
    | _ => simp [Raises, pushesOntoFull, addressOperand]
  · have hzero : ¬∃ rest, s.occupied = rest ++ [0] := mt List.getLast?_eq_some_iff.mpr h
    rw [execDiv_eq_binaryOp h, faultsWith_binaryOp hr]
    cases f with
    | stackUnderflow => simpa [Raises, slotsNeeded] using fun _ => hzero
    | _ => simp [Raises, pushesOntoFull, addressOperand]

theorem faultsWith_execLoadIndirect : FaultsWith f (execLoadIndirect s) ↔ Raises .loadIndirect s f := by
  by_cases h : s.h.val = 0
  · rw [execLoadIndirect, pop_of_zero h, Act.bind_raise, Act.outcome_raise, faultsWith_next]
    cases f <;> simp [Raises, h, occupied_of_zero h, slotsNeeded, pushesOntoFull, addressOperand]
  · obtain ⟨rest, v, hs⟩ := occupied_of_ne_zero h
    obtain ⟨u, hpop, hocc, ⟨-, -, hst, -, -, hconfig⟩, -⟩ := pop_leaves hs
    have hroom : u.h.val < 256 := by
      have hlen := (occupied_append hs).1
      rw [← hocc, occupied_length] at hlen
      omega
    rw [execLoadIndirect, hpop, Act.bind_go, 
      faultsWith_addrOfThen (k := fun a u => push (u.load a) u) (hst.trans hr) f fun a => push_status _ hroom]
    cases f <;> simp [Raises, h, hs, hconfig, slotsNeeded, pushesOntoFull, addressOperand]

theorem faultsWith_execStoreIndirect : FaultsWith f (execStoreIndirect s) ↔ Raises .storeIndirect s f := by
  by_cases h : s.h.val < 2
  · have hnone : addressOperand .storeIndirect s = none := by
      obtain hs | ⟨v, hs⟩ := occupied_of_lt_two h <;> simp [addressOperand, hs]
    obtain ⟨u, hraise⟩ := pop_pop_short _ h
    rw [execStoreIndirect, hraise, Act.outcome_raise, faultsWith_next]
    cases f <;> simp [Raises, h, hnone, slotsNeeded, pushesOntoFull]
  · obtain ⟨rest, v, val, hs⟩ := occupied_of_two_le (Nat.not_lt.mp h)
    obtain ⟨p, n, hpop, hpop', -⟩ := pop_pop_occupied hs
    rw [execStoreIndirect, hpop, Act.bind_go, hpop', Act.bind_go,
      faultsWith_addrOfThen (s := s.withStack n s.slots) hr f fun _ => rfl]
    cases f <;> simp [Raises, h, hs, slotsNeeded, pushesOntoFull, addressOperand]

/-! ### Every instruction -/

/-- On a running machine an instruction raises the faults its rule names and no other (R206). -/
theorem faultsWith_exec (i : Instr) : FaultsWith f (exec i s) ↔ Raises i s f := by
  cases i with
  | dup => exact faultsWith_execDup hr f
  | div => exact faultsWith_execDiv hr f
  | loadIndirect => exact faultsWith_execLoadIndirect hr f
  | storeIndirect => exact faultsWith_execStoreIndirect hr f
  | pushImm imm => exact faultsWith_exec_of_overflow rfl rfl rfl (faultsWith_push hr f _)
  | loadMemImm a => exact faultsWith_exec_of_overflow rfl rfl rfl (faultsWith_push hr f _)
  | loadAddMemImm a => exact faultsWith_exec_of_underflow rfl rfl nofun (faultsWith_topOp hr f _)
  | addImm imm => exact faultsWith_exec_of_underflow rfl rfl nofun (faultsWith_topOp hr f _)
  | greaterOrEqualImm imm => exact faultsWith_exec_of_underflow rfl rfl nofun (faultsWith_topOp hr f _)
  | add => exact faultsWith_exec_of_underflow rfl rfl nofun (faultsWith_binaryOp hr f _)
  | sub => exact faultsWith_exec_of_underflow rfl rfl nofun (faultsWith_binaryOp hr f _)
  | mul => exact faultsWith_exec_of_underflow rfl rfl nofun (faultsWith_binaryOp hr f _)
  | equal => exact faultsWith_exec_of_underflow rfl rfl nofun (faultsWith_binaryOp hr f _)
  | less => exact faultsWith_exec_of_underflow rfl rfl nofun (faultsWith_binaryOp hr f _)
  | lessOrEqual => exact faultsWith_exec_of_underflow rfl rfl nofun (faultsWith_binaryOp hr f _)
  | greater => exact faultsWith_exec_of_underflow rfl rfl nofun (faultsWith_binaryOp hr f _)
  | greaterOrEqual => exact faultsWith_exec_of_underflow rfl rfl nofun (faultsWith_binaryOp hr f _)
  | discard => exact faultsWith_exec_of_underflow rfl rfl nofun (faultsWith_pop hr f)
  | storeMemImm a => exact faultsWith_exec_of_underflow rfl rfl nofun (faultsWith_popThen hr f fun _ _ => rfl)
  | popResult => exact faultsWith_exec_of_underflow rfl rfl nofun (faultsWith_popThen hr f fun _ _ => rfl)
  | print => exact faultsWith_exec_of_underflow rfl rfl nofun (faultsWith_popThen hr f fun _ _ => rfl)
  | jumpIfTrue target => exact faultsWith_exec_of_underflow rfl rfl nofun (faultsWith_conditionalJump hr f _ target)
  | jumpIfFalse target => exact faultsWith_exec_of_underflow rfl rfl nofun (faultsWith_conditionalJump hr f _ target)
  | jump target => exact faultsWith_exec_of_none rfl rfl rfl rfl (State.not_faulted_of_running (s := jumpTo target s) hr)
  | abort => exact faultsWith_exec_of_none rfl rfl rfl rfl fun _ => nofun
  | done => exact faultsWith_exec_of_none rfl rfl rfl rfl fun _ => nofun
  | undefined b => exact faultsWith_exec_of_none rfl rfl rfl rfl fun _ => nofun

end running

/-- Settles O28: the four conditions are what `Raises` says of the four faults. -/
theorem instructionsFaultExactlyWhenTheirRulesSay : Obligations.InstructionsFaultExactlyWhenTheirRulesSay :=
  fun i _ hr => ⟨faultsWith_exec hr _ i, faultsWith_exec hr _ i, faultsWith_exec hr _ i, (faultsWith_exec hr _ i).mp⟩

end Sys2Proof.Machine


/-! ## The memory effect of every instruction (20_memory.md R53, R54; 41_push_and_memory.md R123, R125) -/

namespace Sys2Proof.Machine

/-! ### The instructions that store nothing -/

/-- Only STORE_MEM_IMM and STORE_INDIRECT write memory. -/
theorem exec_mem_of_no_store {i : Instr} {s t : State} (himm : ∀ a, i ≠ .storeMemImm a) (hind : i ≠ .storeIndirect)
    (h : exec i s = .next t) : t.mem = s.mem := by
  obtain hu | ⟨u, a, v, hu, rfl, rfl | rfl⟩ | ⟨-, u, v, hu, rfl⟩ | ⟨-, u, v, hu, rfl⟩ | ⟨u, target, hu, rfl, -⟩ := exec_cases h
  · exact hu.mem_eq
  · exact absurd rfl (himm a)
  · exact absurd rfl hind
  · exact hu.mem_eq
  · exact hu.mem_eq
  · exact hu.mem_eq

theorem storeOf_of_no_store {i : Instr} (himm : ∀ a, i ≠ .storeMemImm a) (hind : i ≠ .storeIndirect) (s : State) :
    storeOf i s = none := by
  unfold storeOf
  split
  next a _ _ _ => exact absurd rfl (himm a)
  next => exact absurd rfl hind
  next => rfl

/-! ### The two that store -/

/-- The store an instruction's rule gives it, done on memory: what a cell then reads. -/
def State.loadAfter (s : State) (i : Instr) (a : Addr) : Word :=
  match storeOf i s with
  | some (b, v) => if a = b then v else s.load a
  | none => s.load a

theorem State.loadAfter_of_none {s : State} {i : Instr} (h : storeOf i s = none) (a : Addr) :
    s.loadAfter i a = s.load a := by rw [State.loadAfter, h]

theorem State.loadAfter_of_some {s : State} {i : Instr} {b : Addr} {v : Word} (h : storeOf i s = some (b, v)) (a : Addr) :
    s.loadAfter i a = if a = b then v else s.load a := by rw [State.loadAfter, h]

theorem exec_storeMemImm_load {s t : State} {b : Imm} (h : exec (.storeMemImm b) s = .next t) (a : Addr) :
    t.load a = s.loadAfter (.storeMemImm b) a := by
  rw [exec, execStoreMemImm] at h
  by_cases hzero : s.h.val = 0
  · rw [pop_of_zero hzero, Act.bind_raise] at h
    cases h
    rw [State.loadAfter_of_none (by simp [storeOf, occupied_of_zero hzero])]
    rfl
  · obtain ⟨rest, v, hs⟩ := occupied_of_ne_zero hzero
    rw [(pop_occupied hs).1, Act.bind_go] at h
    cases h
    rw [State.loadAfter_of_some (b := b) (v := v) (by simp [storeOf, hs])]
    exact State.load_store _ b a v

/-- STORE_INDIRECT on fewer than two slots pops what there is and stores nothing (R125). -/
theorem execStoreIndirect_short {s t : State} (hshort : s.h.val < 2) (h : execStoreIndirect s = .next t) :
    t.mem = s.mem := by
  rw [execStoreIndirect] at h
  obtain ⟨-, hpop⟩ | ⟨hne, hpop⟩ := pop_cases s <;> rw [hpop] at h
  · cases h
    rfl
  · rw [Act.bind_go, pop_of_zero (by change s.h.val - 1 = 0; omega), Act.bind_raise] at h
    cases h
    rfl

theorem execStoreIndirect_load {s t : State} (h : execStoreIndirect s = .next t) (a : Addr) :
    t.load a = s.loadAfter .storeIndirect a := by
  by_cases hshort : s.h.val < 2
  · have hnone : storeOf .storeIndirect s = none := by
      obtain hs | ⟨v, hs⟩ := occupied_of_lt_two hshort <;> simp [storeOf, hs]
    rw [State.loadAfter_of_none hnone, State.load, execStoreIndirect_short hshort h, State.load]
  · obtain ⟨rest, v, val, hs⟩ := occupied_of_two_le (Nat.not_lt.mp hshort)
    obtain ⟨p, n, hpop, hpop', -⟩ := pop_pop_occupied hs
    rw [execStoreIndirect, hpop, Act.bind_go, hpop', Act.bind_go] at h
    cases haddr : addressOf s.config.addressPolicy v with
    | none =>
      rw [addrOf_withStack_none haddr, Act.bind_raise] at h
      cases h
      rw [State.loadAfter_of_none (by simp [storeOf, hs, haddr])]
      rfl
    | some b =>
      rw [addrOf_withStack_some haddr, Act.bind_go] at h
      cases h
      rw [State.loadAfter_of_some (b := b) (v := val) (by simp [storeOf, hs, haddr])]
      exact State.load_store _ b a val

/-- Settles O31: the two storing instructions by their pops and the write's law (`State.load_store`), and every other one
because it writes no memory. -/
theorem instructionsStoreOnlyWhereTheirRulesSay : Obligations.InstructionsStoreOnlyWhereTheirRulesSay := by
  intro i s t h a
  change t.load a = s.loadAfter i a
  by_cases himm : ∃ b, i = .storeMemImm b
  · obtain ⟨b, rfl⟩ := himm
    exact exec_storeMemImm_load h a
  · by_cases hind : i = .storeIndirect
    · subst hind
      exact execStoreIndirect_load h a
    · have himm : ∀ b, i ≠ .storeMemImm b := fun b hb => himm ⟨b, hb⟩
      rw [State.loadAfter_of_none (storeOf_of_no_store himm hind s), State.load, State.load,
        exec_mem_of_no_store himm hind h]

end Sys2Proof.Machine


/-! ## Hazards: broken bounds fault, a missing termination hangs (70_reset_and_hazards.md R247) -/

namespace Sys2Proof.Machine

/-! ### The bounds of one step -/

theorem Fault.ofBounds_eq_false {f : Fault} : f.ofBounds = false ↔ f = .addressOutOfRange := by
  cases f <;> simp [Fault.ofBounds]

/-- The bounds ask of a decoded instruction that its rule name no stack fault (R247, invariant 1). -/
theorem keepsBounds_iff_of_decode {s : State} {i : Instr} {rest : List Byte}
    (h : decode s.config (s.code.drop s.ip) = .ok (i, rest)) (n : Nat) :
    s.KeepsBounds ↔ ∀ f, Raises i (s.withIp n) f → f.ofBounds = false := by
  have hdecode : s.KeepsBounds ↔ (slotsNeeded i ≤ s.h.val ∨ i = .div ∧ ∃ below, s.occupied = below ++ [0]) ∧
      (pushesOntoFull i = true → s.h.val ≤ 255) := by simp [State.KeepsBounds, h]
  rw [hdecode]
  constructor
  · rintro ⟨hneed, hroom⟩ f hf
    cases f with
    | stackUnderflow =>
      obtain ⟨hlt, hdiv⟩ := hf
      exact absurd hneed (not_or.mpr ⟨Nat.not_le.mpr hlt, hdiv⟩)
    | stackOverflow =>
      obtain ⟨hfull, hpush⟩ := hf
      exact absurd ((hroom hpush).trans_lt (by decide)) (Nat.not_lt.mpr hfull.ge)
    | fetchOutOfBounds => exact hf.elim
    | addressOutOfRange => rfl
  · intro hall
    have hunder : ¬Raises i (s.withIp n) .stackUnderflow := fun hf => nomatch hall _ hf
    have hover : ¬Raises i (s.withIp n) .stackOverflow := fun hf => nomatch hall _ hf
    refine ⟨?_, fun hpush => ?_⟩
    · by_contra hneed
      obtain ⟨hlt, hdiv⟩ := not_or.mp hneed
      exact hunder ⟨Nat.not_le.mp hlt, hdiv⟩
    · by_contra hfull
      exact hover ⟨by change s.h.val = 256; omega, hpush⟩

/-- A running machine keeps the bounds exactly when its step records no bounds fault (R247). -/
theorem keepsBounds_iff {s : State} (hr : s.status = .running) :
    s.KeepsBounds ↔ ∀ f, FaultsWith f (step s) → f.ofBounds = false := by
  cases hd : decode s.config (s.code.drop s.ip) with
  | error e =>
    obtain ⟨n, hf⟩ := fetchInstr_of_error hd
    have hfault : FaultsWith .fetchOutOfBounds (step s) := ⟨_, step_ended hr hf, rfl⟩
    exact iff_of_false (by simp [State.KeepsBounds, hd]) fun hall => nomatch hall _ hfault
  | ok p =>
    obtain ⟨i, rest⟩ := p
    rw [step_go hr (fetchInstr_of_decode hd), keepsBounds_iff_of_decode hd (s.ip + i.ipAdvance)]
    simp only [faultsWith_exec (s := s.withIp (s.ip + i.ipAdvance)) hr]

/-- A step that records AddressOutOfRange was made under FaultIfWide (R54). -/
theorem policy_of_addressOutOfRange {s : State} (h : FaultsWith .addressOutOfRange (step s)) :
    s.config.addressPolicy = .faultIfWide := by
  obtain ⟨t, hstep, hst⟩ := h
  have hr := running_of_step hstep
  obtain ⟨i, n, -, hexec⟩ | ⟨n, -, rfl⟩ := step_fetch_cases hstep
  · obtain ⟨hpolicy, -⟩ := (faultsWith_exec (s := s.withIp n) hr .addressOutOfRange i).mp ⟨t, hexec, hst⟩
    exact hpolicy
  · cases hst

/-! ### The bounds along a run -/

theorem stepsTo_config {n : Nat} {s t : State} (h : StepsTo n s t) : t.config = s.config := by
  induction n generalizing s with
  | zero => rw [stepsTo_zero.mp h]
  | succ n ih =>
    obtain ⟨u, hstep, hrun⟩ := stepsTo_succ.mp h
    rw [ih hrun, step_config hstep]

/-- A run from a running machine never reaches Idle (R92, R107). -/
theorem stepsTo_status {n : Nat} {s t : State} (hr : s.status = .running) (h : StepsTo n s t) :
    t.status = .running ∨ (∃ o, t.status = .halted o) ∨ ∃ f, t.status = .faulted f := by
  cases n with
  | zero =>
    rw [← stepsTo_zero.mp h]
    exact .inl hr
  | succ n =>
    obtain ⟨u, -, hstep⟩ := stepsTo_succ_last.mp h
    exact step_status hstep

/-- A fault that a run from a running machine reaches was recorded by its last step. -/
theorem stepsTo_faulted {n : Nat} {s t : State} {f : Fault} (hr : s.status = .running) (h : StepsTo n s t)
    (hst : t.status = .faulted f) : ∃ m u, StepsTo m s u ∧ u.status = .running ∧ FaultsWith f (step u) := by
  cases n with
  | zero =>
    rw [← stepsTo_zero.mp h, hr] at hst
    cases hst
  | succ n =>
    obtain ⟨u, hrun, hstep⟩ := stepsTo_succ_last.mp h
    exact ⟨n, u, hrun, running_of_step hstep, t, hstep, hst⟩

/-- A program is well-formed exactly when its launch records no bounds fault (R247). -/
theorem wellFormedProgram_iff {c : Config} {code : List Byte} : WellFormedProgram c code ↔
    ∀ n t f, StepsTo n (State.launched c code) t → t.status = .faulted f → f.ofBounds = false := by
  constructor
  · intro hwf n t f hrun hst
    obtain ⟨m, u, hrun, hr, hfault⟩ := stepsTo_faulted rfl hrun hst
    exact (keepsBounds_iff hr).mp (hwf m u hrun hr) f hfault
  · intro hall n t hrun hr
    refine (keepsBounds_iff hr).mpr fun f ⟨u, hstep, hst⟩ => ?_
    exact hall (n + 1) u f (stepsTo_succ_last.mpr ⟨t, hrun, hstep⟩) hst

/-- The one fault a launch of a well-formed program can record (D7). -/
theorem WellFormedProgram.fault_eq {c : Config} {code : List Byte} (h : WellFormedProgram c code) {n : Nat} {t : State}
    {f : Fault} (hrun : StepsTo n (State.launched c code) t) (hst : t.status = .faulted f) : f = .addressOutOfRange :=
  Fault.ofBounds_eq_false.mp (wellFormedProgram_iff.mp h n t f hrun hst)

/-- Settles O16: a reached state is Running, Halted or Faulted; a fault is AddressOutOfRange (`WellFormedProgram.fault_eq`),
which only FaultIfWide records. -/
theorem wellFormedProgramsStepUntilAnOutcome : Obligations.WellFormedProgramsStepUntilAnOutcome := by
  intro s s₀ t code n hlaunch hwf hrun
  cases launch_launched hlaunch
  obtain hr | hhalted | ⟨f, hst⟩ := stepsTo_status rfl hrun
  · exact .inl (step_answers_next hr)
  · exact .inr (.inl hhalted)
  · cases hwf.fault_eq hrun hst
    obtain ⟨m, u, hrun', -, hfault⟩ := stepsTo_faulted rfl hrun hst
    have hpolicy := policy_of_addressOutOfRange hfault
    rw [stepsTo_config hrun'] at hpolicy
    exact .inr (.inr ⟨hpolicy, hst⟩)

/-! ### A missing termination -/

/-- The instruction has no outcome: it is none of DONE, ABORT, an undefined byte and a DIV by zero (R107). -/
theorem haltOf_eq_none {i : Instr} {s : State} (h : i ≠ .done ∧ i ≠ .abort ∧ (∀ b, i ≠ .undefined b) ∧
    ¬(i = .div ∧ ∃ below, s.occupied = below ++ [0])) : haltOf i s = none := by
  obtain ⟨hdone, habort, hundef, hdiv⟩ := h
  rw [Option.eq_none_iff_forall_ne_some]
  intro o ho
  cases o with
  | success => exact hdone (haltOf_eq_success.mp ho)
  | endOfStream => exact habort (haltOf_eq_endOfStream.mp ho)
  | unknownOpcode =>
    obtain ⟨b, hb⟩ := haltOf_eq_unknownOpcode.mp ho
    exact hundef b hb
  | divisionByZero => exact hdiv (haltOf_eq_divisionByZero.mp ho)

/-- A running machine whose next instruction has no outcome, and whose step records no fault, is still Running after it. -/
theorem step_keeps_running {s t : State} (hstep : step s = .next t)
    (hhalt : ∀ i u, nextInstr s = some (i, u) → haltOf i u = none) (hfault : ∀ f, t.status ≠ .faulted f) :
    t.status = .running := by
  obtain hr | ⟨o, hst⟩ | ⟨f, hst⟩ := step_status hstep
  · exact hr
  · obtain ⟨u, i, hf, ho⟩ := (step_halted_iff hstep).mp hst
    rw [hhalt i u (nextInstr_eq_some.mpr ⟨running_of_step hstep, hf⟩)] at ho
    cases ho
  · exact absurd hst (hfault f)

/-- A launch that meets no outcome and records no fault is Running after every number of steps (R106, R247). -/
theorem running_forever {s : State} (hr : s.status = .running)
    (hhalt : ∀ n t i u, StepsTo n s t → nextInstr t = some (i, u) → haltOf i u = none)
    (hfault : ∀ n t f, StepsTo n s t → t.status ≠ .faulted f) (n : Nat) : ∃ t, StepsTo n s t ∧ t.status = .running := by
  induction n with
  | zero => exact ⟨s, stepsTo_zero.mpr rfl, hr⟩
  | succ n ih =>
    obtain ⟨t, hrun, hrt⟩ := ih
    obtain ⟨u, hstep⟩ := step_answers_next hrt
    have hrun' : StepsTo (n + 1) s u := stepsTo_succ_last.mpr ⟨t, hrun, hstep⟩
    exact ⟨u, hrun', step_keeps_running hstep (fun i v => hhalt n t i v hrun) fun f => hfault _ u f hrun'⟩

/-- Settles O17: the launch state by `launch_launched`, the bounds of a step by `keepsBounds_iff`, of a launch by
`wellFormedProgram_iff`, and the hang by `running_forever`: the one fault a well-formed program could record is ruled out. -/
theorem brokenBoundsFaultAndMissingTerminationHangs : Obligations.BrokenBoundsFaultAndMissingTerminationHangs := by
  refine ⟨fun s s₀ code => launch_launched, fun s hr => ?_, fun c code => wellFormedProgram_iff,
    fun c code hwf haddr hnone => ?_⟩
  · rw [keepsBounds_iff hr]
    constructor
    · rintro hall ⟨t, f, hstep, hst, hb⟩
      rw [hall f ⟨t, hstep, hst⟩] at hb
      cases hb
    · rintro hno f ⟨t, hstep, hst⟩
      exact Bool.eq_false_iff.mpr fun hb => hno ⟨t, f, hstep, hst, hb⟩
  · refine running_forever rfl (fun n t i u hrun hnext => haltOf_eq_none (hnone n t i u hrun hnext)) fun n t f hrun hst => ?_
    cases hwf.fault_eq hrun hst
    exact haddr n t hrun hst

end Sys2Proof.Machine
